-- ==== Sys2Proof/Word.lean ====
section
/-!
DEFINITION. The word types of the machine: what the spec treats as bits (R6, R8, R9 of 00_scope.md).
Every value is unsigned; arithmetic is written on naturals and narrowed where it is stored (R9).
-/
namespace Sys2Proof

/-- A memory byte or a general register (R21, R50). -/
abbrev Byte := BitVec 8

/-- A 16-bit value: an instruction word, `PC`, `I` or a return address (R23, R24, R26, R70). -/
abbrev Word := BitVec 16

/-- A 4-bit field of an instruction word: `x`, `y` (a register number) or `n` (R70, R71). -/
abbrev Nibble := BitVec 4

/-- The 12-bit field NNN (R71). -/
abbrev Addr12 := BitVec 12

end Sys2Proof
end

