-- ==== Sys2Proof/Config.lean ====
section
/-!
DEFINITION. What is fixed for the machine (R6 of 00_scope.md) and what the spec leaves open (R7): the open
parameters are opaque constants, so that whatever is proved holds for every value the spec admits.
-/
namespace Sys2Proof

/-- `MEM_SIZE`: memory holds addresses 0x000 to 0xFFF (R6, R50). -/
def Config.memSize : Nat := 4096

/-- `STACK_DEPTH`: the call stack holds at most this many return addresses (R6, R26). -/
def Config.stackDepth : Nat := 16

/-- `FONT_BASE`: where the font table starts (R6, R58). -/
def Config.fontBase : Nat := 0x050

/-- `GLYPH_BYTES`: the bytes of one glyph (R6). -/
def Config.glyphBytes : Nat := 5

/-- The length of the font table: `NUM_GLYPHS` = 16 glyphs of `GLYPH_BYTES` (R6, R58). -/
def Config.fontLength : Nat := 80

/-- `PROG_BASE`: where the program image is loaded and execution starts (R6, R273). -/
def Config.progBase : Nat := 0x200

/-- `PROG_MAX`: the longest program image that fits (R6, R272, D19). -/
def Config.progMax : Nat := 3584

/-- `INSN_BYTES`: every instruction is two bytes long (R6, R70). -/
def Config.insnBytes : Nat := 2

/-- Free value: the open parameter `RNG` (R7, D18). The byte that the k-th execution of CXKK draws; nothing is
known of any of them. DESIGN CHOICE (log 1), safe: `State.draws` counts the draws, so that each is fresh. -/
opaque Config.rngByte : Nat → Byte

/-- `DELAY_INIT` less one: the spec admits exactly the values 1 to 255 (R7, D17). DESIGN CHOICE (log 2), safe. -/
opaque Config.delayInitLessOne : Fin 255

/-- `SOUND_INIT` less one: the spec admits exactly the values 1 to 255 (R7, D17). DESIGN CHOICE (log 2), safe. -/
opaque Config.soundInitLessOne : Fin 255

/-- The open parameter `DELAY_INIT`, some value of 1 to 255 (R7, R35). -/
def Config.delayInit : Byte := BitVec.ofNat 8 (Config.delayInitLessOne.val + 1)

/-- The open parameter `SOUND_INIT`, some value of 1 to 255 (R7, R35). -/
def Config.soundInit : Byte := BitVec.ofNat 8 (Config.soundInitLessOne.val + 1)

/-- The open parameter `FONT_GLYPHS`: the 80 font bytes, glyph d at 5·d, rows in order (R7, R271, D8).
DESIGN CHOICE (log 3), safe. -/
opaque Config.fontGlyphs : Vector Byte Config.fontLength

/-- The default that D8 recommends for `FONT_GLYPHS` (general knowledge, not in the source; G1 of
93_implementation_defined.md). No definition of the machine reads it: the tests draw its glyphs. -/
def Config.recommendedFont : List Byte :=
  [0xF0, 0x90, 0x90, 0x90, 0xF0] ++ [0x20, 0x60, 0x20, 0x20, 0x70] ++
  [0xF0, 0x10, 0xF0, 0x80, 0xF0] ++ [0xF0, 0x10, 0xF0, 0x10, 0xF0] ++
  [0x90, 0x90, 0xF0, 0x10, 0x10] ++ [0xF0, 0x80, 0xF0, 0x10, 0xF0] ++
  [0xF0, 0x80, 0xF0, 0x90, 0xF0] ++ [0xF0, 0x10, 0x20, 0x40, 0x40] ++
  [0xF0, 0x90, 0xF0, 0x90, 0xF0] ++ [0xF0, 0x90, 0xF0, 0x10, 0xF0] ++
  [0xF0, 0x90, 0xF0, 0x90, 0x90] ++ [0xE0, 0x90, 0xE0, 0x90, 0xE0] ++
  [0xF0, 0x80, 0x80, 0x80, 0xF0] ++ [0xE0, 0x90, 0x90, 0x90, 0xE0] ++
  [0xF0, 0x80, 0xF0, 0x80, 0xF0] ++ [0xF0, 0x80, 0xF0, 0x80, 0x80]

end Sys2Proof
end

