-- ==== Sys2Proof/Machine/State.lean ====
section
/-!
DEFINITION. The state of the core as plain data: exactly the record of R20 of 10_state.md, and one counter of the
model's own (`draws`); the fault kinds of R240 of 60_exceptions.md; the state after reset (R35).
-/
namespace Sys2Proof.Machine

/-- The fault kinds (R14, R240). Each stops the core for good (R247). `State.fault` records the kind. -/
inductive Fault where
  /-- Raised by dispatch on a word that matches no row of the opcode map (R241). Safe: the spec names this fault. -/
  | invalidOpcode (word : Word)
  /-- Raised by the fetch, DXYN, FX33, FX55 and FX65 when an access would touch an address above 0xFFF (R242).
  Safe: the spec names this fault. -/
  | addressOverflow
  /-- Raised by 2NNN when the stack already holds 16 return addresses (R243). Safe: the spec names this fault. -/
  | stackOverflow
  /-- Raised by 00EE when the stack is empty (R244). Safe: the spec names this fault. -/
  | stackUnderflow
  /-- Raised by EX9E and EXA1 when Vx is above 15 (R245, D14). Safe: the spec's own model-only kind, which carries
  no guessed key. -/
  | invalidKey (value : Byte)
deriving DecidableEq, Repr

/-- Why the model has no state to go on to. -/
inductive Refusal where
  /-- Raised by no arm of `exec`: every instruction has its meaning. Safe: a refused step proves nothing. -/
  | notModelled (mnemonic : String)
  /-- Raised by `boot` on a program image longer than 3584 bytes (R272, D19). Safe: no state is created. -/
  | imageTooLong (length : Nat)
deriving DecidableEq, Repr

/-- The key-wait sub-state (R32). -/
inductive WaitState where
  /-- No key wait is in progress. -/
  | idle
  /-- The FX0A at `PC` found no key pressed and is executed again by the next `step()` (R101). -/
  | awaitingKey
deriving DecidableEq, Repr

/-- The memory bank as the cells that differ from their reset content (R50, R58): addresses strictly rising, no cell
equal to what an unlisted address reads as (`Memory.wf`). -/
abbrev Memory := List Host.Cell

/-- The framebuffer `FB[x][y]`: 64 columns of 32 one-bit pixels (R29). -/
abbrev Frame := Vector (Vector Bool 32) 64

/-- The state record (R20). -/
structure State where
  /-- The general registers V0 to VF; V[15] is the flag register (R21, R22). -/
  V : Vector Byte 16
  /-- The index register (R23). -/
  I : Word
  /-- The program counter: the address of the executing instruction (R24). -/
  PC : Word
  /-- The return addresses, the last element the top of the stack (R26). -/
  stack : List Word
  /-- The delay timer (R27). -/
  DT : Byte
  /-- The sound timer (R28). -/
  ST : Byte
  /-- The memory bank (R50). -/
  mem : Memory
  /-- The framebuffer (R29). -/
  FB : Frame
  /-- The framebuffer's dirty flag (R30). -/
  dirty : Bool
  /-- The input latch: `key[k]` is true while key k is pressed (R31). -/
  key : Vector Bool 16
  /-- The key-wait sub-state (R32). -/
  wait : WaitState
  /-- The sticky fatal status (R33). -/
  fault : Option Fault
  /-- The model's own field: how many bytes have been drawn from `Config.rngByte`. DESIGN CHOICE (log 1), safe. -/
  draws : Nat
deriving DecidableEq, Repr

/-- The framebuffer with every pixel 0. -/
def blankFrame : Frame := Vector.replicate 64 (Vector.replicate 32 false)

/-- The state right after reset, with an empty program image (R35, R270, R273). -/
def State.reset : State where
  V := Vector.replicate 16 0
  I := 0x0000
  PC := 0x0200
  stack := []
  DT := Config.delayInit
  ST := Config.soundInit
  mem := []
  FB := blankFrame
  dirty := false
  key := Vector.replicate 16 false
  wait := .idle
  fault := none
  draws := 0

end Sys2Proof.Machine
end

