-- ==== Sys2Proof/Machine/Ops.lean ====
section
/-!
DEFINITION. The named operations over memory, registers, framebuffer, PC and faults that every meaning is written with.
-/
namespace Sys2Proof.Machine

/-- What one step of the core or the meaning of one instruction answers. -/
abbrev Result := Host.Outcome State Fault Refusal

/-! ## Memory (20_memory.md) -/

/-- What an address holds that the memory list does not name: its content at reset, before any program image is
loaded (R58, R271): the font byte in 0x050 to 0x09F, else 0. -/
def unlistedByte (a : Nat) : Byte :=
  if h : Config.fontBase ≤ a ∧ a < Config.fontBase + Config.fontLength then
    Config.fontGlyphs[a - Config.fontBase]'(by omega)
  else 0

/-- The canonical form of the memory list: addresses strictly rising and inside memory, no cell equal to what its
address reads as when unlisted. -/
abbrev Memory.wf (m : Memory) : Prop :=
  m.Pairwise (fun c d => c.1 < d.1) ∧ ∀ c ∈ m, c.1 < Config.memSize ∧ c.2 ≠ unlistedByte c.1

/-- `MemRead(a, 1)` (R11): the byte last written at `a`, or its reset content (R57). Meanings read only addresses
that a span check has passed; no effect on the state. -/
def memRead : Memory → Nat → Byte
  | [], a => unlistedByte a
  | c :: m, a => if a = c.1 then c.2 else memRead m a

/-- The memory list without any cell for `a`. -/
def memErase (m : Memory) (a : Nat) : Memory := m.filter (fun c => c.1 != a)

/-- The memory list with a cell put before the first cell of a higher address. -/
def memInsert (a : Nat) (v : Byte) : Memory → Memory
  | [] => [(a, v)]
  | c :: m => if a < c.1 then (a, v) :: c :: m else c :: memInsert a v m

/-- `MemWrite(a, 1, v)` (R11): stores a byte, keeping the canonical form. No byte exists above 0xFFF (R50), so a
write there changes nothing; meanings write only addresses that a span check has passed. -/
def memWrite (m : Memory) (a : Nat) (v : Byte) : Memory :=
  if a < Config.memSize then
    if v = unlistedByte a then memErase m a else memInsert a v (memErase m a)
  else m

/-- Bytes written at consecutive increasing addresses, the first at `a` (R56). -/
def memWriteBytes (m : Memory) (a : Nat) : List Byte → Memory
  | [] => m
  | v :: vs => memWriteBytes (memWrite m a v) (a + 1) vs

/-- The `n` bytes at consecutive increasing addresses from `a` (R56). -/
def memReadBytes (m : Memory) (a : Nat) : Nat → List Byte
  | 0 => []
  | n + 1 => memRead m a :: memReadBytes m (a + 1) n

/-- The bytes `a` to `a + n - 1` all lie inside memory; a span of no bytes touches none (R52, R54). Addresses are
naturals: nothing wraps. -/
def spanOk (a n : Nat) : Bool := n == 0 || a + n ≤ Config.memSize

/-! ## Taking a fault (60_exceptions.md) -/

/-- Fault entry as the host sees it in the state: only `fault` is set (R246). -/
def State.raise (k : Fault) (s : State) : State := { s with fault := some k }

/-- `raise E` (R11, R98): the instruction ends with the fault and has written nothing. What the whole `step()` call
leaves is `State.raise` (R246), see `stepCall`. -/
def raiseFault (k : Fault) : Result := .fault k

/-- `CheckRange` over a whole span before any write: `AddressOverflow` if a byte of it is above 0xFFF (R52, R54,
R242). -/
def checkSpan (a n : Nat) (k : Result) : Result :=
  if spanOk a n then k else raiseFault .addressOverflow

/-! ## Registers (10_state.md) -/

/-- The value of register Vx (R21). -/
def State.readV (s : State) (x : Nibble) : Byte := s.V[x.toNat]'x.isLt

/-- Register Vx gets a value (R21). -/
def State.setV (s : State) (x : Nibble) (v : Byte) : State := { s with V := s.V.set x.toNat v x.isLt }

/-- All sixteen registers get values. -/
def State.setAllV (s : State) (vs : Vector Byte 16) : State := { s with V := vs }

/-- The index register gets a value (R23). -/
def State.setI (s : State) (v : Word) : State := { s with I := v }

/-- The program counter gets a value (R24). -/
def State.setPC (s : State) (v : Word) : State := { s with PC := v }

/-- The call stack gets new contents (R26). -/
def State.setStack (s : State) (vs : List Word) : State := { s with stack := vs }

/-- The delay timer gets a value (R27). -/
def State.setDT (s : State) (v : Byte) : State := { s with DT := v }

/-- The sound timer gets a value (R28). -/
def State.setST (s : State) (v : Byte) : State := { s with ST := v }

/-- Bytes are stored from an address on (R56). -/
def State.storeBytes (s : State) (a : Nat) (vs : List Byte) : State := { s with mem := memWriteBytes s.mem a vs }

/-- The framebuffer gets new contents and is marked dirty: "dirty flag set on any mutation" (R30). -/
def State.setFrame (s : State) (f : Frame) : State := { s with FB := f, dirty := true }

/-- The renderer has consumed the frame (R30, R252). -/
def State.clearDirtyFlag (s : State) : State := { s with dirty := false }

/-- A key bit of the input latch gets a value (R31, R220). -/
def State.setKeyBit (s : State) (k : Fin 16) (b : Bool) : State := { s with key := s.key.set k.val b k.isLt }

/-- The key-wait sub-state changes (R32, R224). -/
def State.setWait (s : State) (w : WaitState) : State := { s with wait := w }

/-- One more byte has been drawn from the `RNG` parameter: the next draw is a fresh one (R11, D18). -/
def State.countDraw (s : State) : State := { s with draws := s.draws + 1 }

/-! ## Framebuffer pixels (44_display.md) -/

/-- The pixel at column `x`, row `y`; none is set outside the 64 by 32 grid (R29). -/
def pixel (f : Frame) (x y : Nat) : Bool :=
  if h : x < 64 ∧ y < 32 then (f[x]'h.1)[y]'h.2 else false

/-- The framebuffer with one pixel changed; outside the grid there is none to change (R29, R193). -/
def setPixel (f : Frame) (x y : Nat) (b : Bool) : Frame :=
  if h : x < 64 ∧ y < 32 then f.set x ((f[x]'h.1).set y b h.2) h.1 else f

/-! ## PC-advance policies (40_cycle.md) -/

/-- The three policies of R94. -/
inductive PcPolicy where
  /-- PC stays as the instruction left it. -/
  | keep
  /-- PC += 2, the default. -/
  | step
  /-- PC += 4, a conditional skip that matched. -/
  | skip
deriving DecidableEq, Repr

/-- What a policy makes of a PC: 16-bit additions (R94). -/
def pcAfter (p : PcPolicy) (pc : Word) : Word :=
  match p with
  | .keep => pc
  | .step => pc + 2
  | .skip => pc + 4

/-- The PC-advance of an instruction (R90, R94). -/
def State.advance (s : State) (p : PcPolicy) : State := { s with PC := pcAfter p s.PC }

/-- An instruction that completes: its writes are done, then its policy is applied (R90). -/
def complete (s : State) (p : PcPolicy) : Result := .next (s.advance p)

end Sys2Proof.Machine
end

