-- ==== Sys2Proof/Machine/Operands.lean ====
section
/-!
DEFINITION. The operand forms: immediates, register operands, the one data addressing mode, the implicit register
block, the key index and the glyph address (R72 of 30_encoding.md, R169, R172 of 43_index_memory.md, R221 of
46_input.md).
-/
namespace Sys2Proof.Machine

/-- `zext_16(NNN)` (R72). -/
def addr16 (nnn : Addr12) : Word := nnn.setWidth 16

/-- `zext_16` of a register value (R114, R171). -/
def zext16 (v : Byte) : Word := v.setWidth 16

/-- The register number of VF, the flag register (R22). -/
def flagReg : Nibble := 0xF

/-- The register number of V0, the offset register of BNNN (R114). -/
def offsetReg : Nibble := 0x0

/-- The address of the memory operand at offset `k`: indirect through I, on naturals (R52, R169). -/
def memOperand (s : State) (k : Nat) : Nat := s.I.toNat + k

/-- How many registers the block V0..VX holds (R174, R175). -/
def blockLen (x : Nibble) : Nat := x.toNat + 1

/-- The values of the implicit block V0..VX, in order (R174). -/
def regBlock (s : State) (x : Nibble) : List Byte := s.V.toList.take (blockLen x)

/-- The registers after V0..VX have been loaded from memory at I on; the others as they were (R175). -/
def loadBlock (s : State) (x : Nibble) : Vector Byte 16 :=
  Vector.ofFn (fun k : Fin 16 => if k.val ≤ x.toNat then memRead s.mem (memOperand s k.val) else s.V[k.val])

/-- I after a block transfer: I + X + 1 (R169, R174, R175); a transfer that passes its span check gives at most
0x1000. -/
def indexPast (s : State) (x : Nibble) : Word := BitVec.ofNat 16 (s.I.toNat + blockLen x)

/-- FX1E's sum: min(I + Vx, 0xFFFF) on naturals (R171). -/
def saturatingIndex (i : Word) (v : Byte) : Word := BitVec.ofNat 16 (min (i.toNat + v.toNat) 0xFFFF)

/-- The address of the glyph for a register value, which is not masked to a digit (R172, conflict C2, D7). -/
def glyphAddr (v : Byte) : Word := BitVec.ofNat 16 (Config.fontBase + Config.glyphBytes * v.toNat)

/-- The three decimal digits of a byte: hundreds, tens, ones (R173). -/
def bcdDigits (v : Byte) : List Byte :=
  [BitVec.ofNat 8 (v.toNat / 100), BitVec.ofNat 8 (v.toNat / 10 % 10), BitVec.ofNat 8 (v.toNat % 10)]

/-- The key index in a register, if it is one of the 16 keys (R221, R222). -/
def keyIndex (v : Byte) : Option (Fin 16) := if h : v.toNat < 16 then some ⟨v.toNat, h⟩ else none

/-- Is key `k` pressed (R31)? -/
def keyDown (s : State) (k : Fin 16) : Bool := s.key[k.val]

/-- The lowest pressed key, if any key is pressed (R223, R225). -/
def lowestKey (s : State) : Option (Fin 16) := (List.finRange 16).find? (fun k => keyDown s k)

end Sys2Proof.Machine
end

