-- ==== Sys2Proof/Machine/Flags.lean ====
section
/-!
DEFINITION. The flag computations of 42_alu.md and the order of the two writes of a flag-defining instruction
(R22 of 10_state.md, R97 of 40_cycle.md, R139 of 42_alu.md).
-/
namespace Sys2Proof.Machine

/-- A flag as VF holds it: 0 or 1 (R9, R22). -/
def flagByte (b : Bool) : Byte := if b then 1 else 0

/-- Carry: the sum exceeds 255 (R146). -/
def carryFlag (a b : Byte) : Bool := a.toNat + b.toNat > 255

/-- No borrow: the minuend is at least the subtrahend, equality included (R139, R147, R149). -/
def noBorrowFlag (a b : Byte) : Bool := a.toNat ≥ b.toNat

/-- The bit a right shift by one drops (R148). -/
def lsbFlag (v : Byte) : Bool := v.getLsbD 0

/-- The bit a left shift by one drops (R150). -/
def msbFlag (v : Byte) : Bool := v.getLsbD 7

/-- (a + b) mod 256 (R139, R141, R146). -/
def addMod (a b : Byte) : Byte := BitVec.ofNat 8 ((a.toNat + b.toNat) % 256)

/-- (a - b) mod 256, computed as (a + 256 - b) mod 256 (R139). -/
def subMod (a b : Byte) : Byte := BitVec.ofNat 8 ((a.toNat + 256 - b.toNat) % 256)

/-- A logical right shift by one: bit 7 of the result is 0 (R148). -/
def shiftRight1 (v : Byte) : Byte := v >>> 1

/-- A left shift by one, mod 256: bit 0 of the result is 0 (R150). -/
def shiftLeft1 (v : Byte) : Byte := v <<< 1

/-- VF gets a flag (R22). -/
def State.setVF (s : State) (b : Bool) : State := s.setV flagReg (flagByte b)

/-- The result goes to Vx, then the flag to VF: with x = F the flag is what stays (R97, conflict C4). -/
def State.setResultThenFlag (s : State) (x : Nibble) (r : Byte) (f : Bool) : State := (s.setV x r).setVF f

end Sys2Proof.Machine
end

