-- ==== Sys2Proof/Machine/Alu.lean ====
section
/-!
DEFINITION. Register loads, arithmetic, logic, shifts and the random byte (42_alu.md): policy Step, no fault.
-/
namespace Sys2Proof.Machine

/-- A result written to Vx with no flag (R22, D31). -/
def writeResult (x : Nibble) (r : Byte) (s : State) : Result := complete (s.setV x r) .step

/-- A result written to Vx and then a flag to VF (R97). -/
def writeResultAndFlag (x : Nibble) (r : Byte) (f : Bool) (s : State) : Result :=
  complete (s.setResultThenFlag x r f) .step

/-- 6XKK: Vx <- KK (R140). -/
def execLdImm (x : Nibble) (kk : Byte) (s : State) : Result := writeResult x kk s

/-- 7XKK: Vx <- (Vx + KK) mod 256 (R141). -/
def execAddImm (x : Nibble) (kk : Byte) (s : State) : Result := writeResult x (addMod (s.readV x) kk) s

/-- 8XY0: Vx <- Vy (R142). -/
def execLdReg (x y : Nibble) (s : State) : Result := writeResult x (s.readV y) s

/-- 8XY1: Vx <- Vx OR Vy (R143). -/
def execOrReg (x y : Nibble) (s : State) : Result := writeResult x (s.readV x ||| s.readV y) s

/-- 8XY2: Vx <- Vx AND Vy (R144). -/
def execAndReg (x y : Nibble) (s : State) : Result := writeResult x (s.readV x &&& s.readV y) s

/-- 8XY3: Vx <- Vx XOR Vy (R145). -/
def execXorReg (x y : Nibble) (s : State) : Result := writeResult x (s.readV x ^^^ s.readV y) s

/-- 8XY4: Vx <- (Vx + Vy) mod 256, VF <- sum > 255 (R146). -/
def execAddReg (x y : Nibble) (s : State) : Result :=
  writeResultAndFlag x (addMod (s.readV x) (s.readV y)) (carryFlag (s.readV x) (s.readV y)) s

/-- 8XY5: Vx <- (Vx - Vy) mod 256, VF <- Vx >= Vy (R147). -/
def execSubReg (x y : Nibble) (s : State) : Result :=
  writeResultAndFlag x (subMod (s.readV x) (s.readV y)) (noBorrowFlag (s.readV x) (s.readV y)) s

/-- 8XY6: Vx <- Vy >> 1, VF <- bit 0 of Vy (R148). -/
def execShrReg (x y : Nibble) (s : State) : Result :=
  writeResultAndFlag x (shiftRight1 (s.readV y)) (lsbFlag (s.readV y)) s

/-- 8XY7: Vx <- (Vy - Vx) mod 256, VF <- Vy >= Vx (R149). -/
def execSubnReg (x y : Nibble) (s : State) : Result :=
  writeResultAndFlag x (subMod (s.readV y) (s.readV x)) (noBorrowFlag (s.readV y) (s.readV x)) s

/-- 8XYE: Vx <- (Vy << 1) mod 256, VF <- bit 7 of Vy (R150). -/
def execShlReg (x y : Nibble) (s : State) : Result :=
  writeResultAndFlag x (shiftLeft1 (s.readV y)) (msbFlag (s.readV y)) s

/-- CXKK with the drawn byte as an argument: Vx <- r AND KK, and the draw is counted (R151). -/
def rndWith (r : Byte) (x : Nibble) (kk : Byte) (s : State) : Result := writeResult x (r &&& kk) s.countDraw

/-- CXKK: the drawn byte is the free value of this draw (R151, D18; log 1). -/
def execRnd (x : Nibble) (kk : Byte) (s : State) : Result := rndWith (Config.rngByte s.draws) x kk s

end Sys2Proof.Machine
end

