-- ==== Sys2Proof/Machine/Control.lean ====
section
/-!
DEFINITION. Return, jumps, call and the conditional skips (41_control_flow.md). Every read is of the state before the
instruction (R96).
-/
namespace Sys2Proof.Machine

/-- A jump: PC gets the target, policy Keep (R111, R112, R114). No target is checked when it is computed (R119). -/
def jumpTo (target : Word) (s : State) : Result := complete (s.setPC target) .keep

/-- A conditional skip: policy Skip if the condition holds, else Step (R94). -/
def skipIf (c : Bool) (s : State) : Result := complete s (if c then .skip else .step)

/-- 00EE: PC <- pop(), or StackUnderflow on an empty stack (R110). -/
def execRet (s : State) : Result :=
  match s.stack.getLast? with
  | none => raiseFault .stackUnderflow
  | some target => complete ((s.setStack s.stack.dropLast).setPC target) .keep

/-- 0NNN: PC <- NNN (R111). -/
def execSys (nnn : Addr12) (s : State) : Result := jumpTo (addr16 nnn) s

/-- 1NNN: PC <- NNN (R112). -/
def execJp (nnn : Addr12) (s : State) : Result := jumpTo (addr16 nnn) s

/-- 2NNN: push(PC + 2) and PC <- NNN, or StackOverflow when 16 entries are on the stack (R113). -/
def execCall (nnn : Addr12) (s : State) : Result :=
  if s.stack.length < Config.stackDepth then
    complete ((s.setStack (s.stack ++ [s.PC + 2])).setPC (addr16 nnn)) .keep
  else raiseFault .stackOverflow

/-- BNNN: PC <- NNN + V0, not masked (R114). -/
def execJpV0 (nnn : Addr12) (s : State) : Result := jumpTo (addr16 nnn + zext16 (s.readV offsetReg)) s

/-- 3XKK (R115). -/
def execSeImm (x : Nibble) (kk : Byte) (s : State) : Result := skipIf (s.readV x == kk) s

/-- 4XKK (R116). -/
def execSneImm (x : Nibble) (kk : Byte) (s : State) : Result := skipIf (s.readV x != kk) s

/-- 5XY0 (R117). -/
def execSeReg (x y : Nibble) (s : State) : Result := skipIf (s.readV x == s.readV y) s

/-- 9XY0 (R118). -/
def execSneReg (x y : Nibble) (s : State) : Result := skipIf (s.readV x != s.readV y) s

end Sys2Proof.Machine
end

