-- ==== Sys2Proof/Machine/Display.lean ====
section
/-!
DEFINITION. Clearing the framebuffer and drawing a sprite (44_display.md): XOR composition, clipping, collision.
-/
namespace Sys2Proof.Machine

/-- A framebuffer being drawn on, and whether a drawn pixel has been turned off so far (R194). -/
abbrev Canvas := Frame × Bool

/-- Column `c` of a sprite row takes bit 7 - c of the sprite byte: the most significant bit is the leftmost pixel
(R192, D9; log 8). -/
def spriteBit (row : Byte) (c : Nat) : Bool := row.getLsbD (7 - c)

/-- One target pixel: dropped outside the grid (R193), else XOR with the sprite bit, a collision if a set pixel meets
a set bit (R191, R194). -/
def drawPixel (px py : Nat) (bit : Bool) (d : Canvas) : Canvas :=
  if px ≤ 63 ∧ py ≤ 31 then
    (setPixel d.1 px py (pixel d.1 px py ^^ bit), d.2 || (pixel d.1 px py && bit))
  else d

/-- The columns from `c` on, `k` of them, of a sprite row drawn at row `py` with the sprite's left edge at `x0`. -/
def drawColumns (x0 py : Nat) (row : Byte) (c : Nat) : Nat → Canvas → Canvas
  | 0, d => d
  | k + 1, d => drawColumns x0 py row (c + 1) k (drawPixel (x0 + c) py (spriteBit row c) d)

/-- The rows of a sprite, the first at row `py`: 8 columns each, top to bottom (R191). Coordinates are naturals, so
nothing wraps to the opposite edge (R193). -/
def drawRows (x0 : Nat) : Nat → List Byte → Canvas → Canvas
  | _, [], d => d
  | py, row :: rows, d => drawRows x0 (py + 1) rows (drawColumns x0 py row 0 8 d)

/-- The canvas after the sprite `rows` has been drawn at (x0, y0) on a framebuffer, with no collision at the start. -/
def drawSprite (f : Frame) (x0 y0 : Nat) (rows : List Byte) : Canvas := drawRows x0 y0 rows (f, false)

/-- 00E0: every pixel 0, dirty (R190). -/
def execCls (s : State) : Result := complete (s.setFrame blankFrame) .step

/-- DXYN: the N rows from I on drawn at (Vx, Vy), VF <- collision, dirty; all N rows are checked and read, drawn or
clipped (R191, D10). -/
def execDrw (x y n : Nibble) (s : State) : Result :=
  checkSpan (memOperand s 0) n.toNat
    (let rows := memReadBytes s.mem (memOperand s 0) n.toNat
     let d := drawSprite s.FB (s.readV x).toNat (s.readV y).toNat rows
     complete ((s.setFrame d.1).setVF d.2) .step)

end Sys2Proof.Machine
end

