-- ==== Sys2Proof/Machine/Index.lean ====
section
/-!
DEFINITION. The index register and the memory transfers (43_index_memory.md): policy Step; the whole span is checked
before any write (R54, R98).
-/
namespace Sys2Proof.Machine

/-- I gets a value; no flag, no fault (R23). -/
def writeIndex (v : Word) (s : State) : Result := complete (s.setI v) .step

/-- ANNN: I <- NNN (R170). -/
def execLdI (nnn : Addr12) (s : State) : Result := writeIndex (addr16 nnn) s

/-- FX1E: I <- min(I + Vx, 0xFFFF) (R171). -/
def execAddI (x : Nibble) (s : State) : Result := writeIndex (saturatingIndex s.I (s.readV x)) s

/-- FX29: I <- 0x050 + 5·Vx (R172). -/
def execLdF (x : Nibble) (s : State) : Result := writeIndex (glyphAddr (s.readV x)) s

/-- FX33: the decimal digits of Vx to memory at I, I+1, I+2; I stays (R173). -/
def execLdB (x : Nibble) (s : State) : Result :=
  checkSpan (memOperand s 0) 3
    (complete (s.storeBytes (memOperand s 0) (bcdDigits (s.readV x))) .step)

/-- FX55: V0..VX to memory from I on, then I <- I + X + 1 (R174). -/
def execLdMemVx (x : Nibble) (s : State) : Result :=
  checkSpan (memOperand s 0) (blockLen x)
    (complete ((s.storeBytes (memOperand s 0) (regBlock s x)).setI (indexPast s x)) .step)

/-- FX65: memory from I on to V0..VX, then I <- I + X + 1 (R175). -/
def execLdVxMem (x : Nibble) (s : State) : Result :=
  checkSpan (memOperand s 0) (blockLen x)
    (complete ((s.setAllV (loadBlock s x)).setI (indexPast s x)) .step)

end Sys2Proof.Machine
end

