-- ==== Sys2Proof/Machine/Input.lean ====
section
/-!
DEFINITION. The key tests, the key wait and the latch's two entry points (46_input.md).
-/
namespace Sys2Proof.Machine

/-- A key test: InvalidKey for a value above 15, else a conditional skip on the key's level (R221, R222, R245). -/
def keyTest (v : Byte) (want : Bool) (s : State) : Result :=
  match keyIndex v with
  | none => raiseFault (.invalidKey v)
  | some k => skipIf (keyDown s k == want) s

/-- EX9E: skip if key Vx is pressed (R221). -/
def execSkp (x : Nibble) (s : State) : Result := keyTest (s.readV x) true s

/-- EXA1: skip if key Vx is not pressed (R222). -/
def execSknp (x : Nibble) (s : State) : Result := keyTest (s.readV x) false s

/-- FX0A: the lowest pressed key goes to Vx and the wait ends; with no key pressed the core awaits one and PC stays
(R223, R224, R225). -/
def execLdVxK (x : Nibble) (s : State) : Result :=
  match lowestKey s with
  | some k => complete ((s.setV x (BitVec.ofNat 8 k.val)).setWait .idle) .step
  | none => complete (s.setWait .awaitingKey) .keep

/-- `keySet(k)` (R220): a key index above 15 is no move (D25; log 10). -/
def keySet (k : Fin 16) (s : State) : State := s.setKeyBit k true

/-- `keyClear(k)` (R220). -/
def keyClear (k : Fin 16) (s : State) : State := s.setKeyBit k false

end Sys2Proof.Machine
end

