-- ==== Sys2Proof/Machine/Timers.lean ====
section
/-!
DEFINITION. The timer instructions, `tick()` and the tone output (45_timers.md).
-/
namespace Sys2Proof.Machine

/-- FX07: Vx <- DT (R210). -/
def execLdVxDT (x : Nibble) (s : State) : Result := complete (s.setV x s.DT) .step

/-- FX15: DT <- Vx (R211). -/
def execLdDTVx (x : Nibble) (s : State) : Result := complete (s.setDT (s.readV x)) .step

/-- FX18: ST <- Vx (R212). -/
def execLdSTVx (x : Nibble) (s : State) : Result := complete (s.setST (s.readV x)) .step

/-- A timer one lower, floored at 0 (R213). -/
def countDown (v : Byte) : Byte := if v = 0 then 0 else v - 1

/-- `tick()`: both timers count down; a faulted core answers its fault and changes nothing (R213). -/
def tick (s : State) : Result :=
  match s.fault with
  | some k => raiseFault k
  | none => .next ((s.setDT (countDown s.DT)).setST (countDown s.ST))

/-- The output "tone enabled" (R214). -/
def toneEnabled (s : State) : Bool := s.ST.toNat > 0

end Sys2Proof.Machine
end

