-- ==== Sys2Proof/Syntax.lean ====
section
/-!
DEFINITION. The syntax of the 35 instructions: one constructor per row of the opcode map (R75 of 30_encoding.md),
its operands the fields of R71 that the row leaves open.
-/
namespace Sys2Proof

/-- The 35 instructions, in the order of the opcode map. Each docstring gives the row's pattern and its rule. -/
inductive Instr where
  /-- 00E0: clear the framebuffer (R190). -/
  | cls
  /-- 00EE: return from subroutine (R110). -/
  | ret
  /-- 0NNN but 00E0 and 00EE: legacy jump (R111). -/
  | sys (nnn : Addr12)
  /-- 1NNN: jump (R112). -/
  | jp (nnn : Addr12)
  /-- 2NNN: call subroutine (R113). -/
  | call (nnn : Addr12)
  /-- 3XKK: skip if Vx equals the immediate (R115). -/
  | seImm (x : Nibble) (kk : Byte)
  /-- 4XKK: skip if Vx differs from the immediate (R116). -/
  | sneImm (x : Nibble) (kk : Byte)
  /-- 5XY0: skip if Vx equals Vy (R117). -/
  | seReg (x y : Nibble)
  /-- 6XKK: load immediate (R140). -/
  | ldImm (x : Nibble) (kk : Byte)
  /-- 7XKK: add immediate, no flag (R141). -/
  | addImm (x : Nibble) (kk : Byte)
  /-- 8XY0: copy register (R142). -/
  | ldReg (x y : Nibble)
  /-- 8XY1: bitwise or (R143). -/
  | orReg (x y : Nibble)
  /-- 8XY2: bitwise and (R144). -/
  | andReg (x y : Nibble)
  /-- 8XY3: bitwise exclusive or (R145). -/
  | xorReg (x y : Nibble)
  /-- 8XY4: add with carry flag (R146). -/
  | addReg (x y : Nibble)
  /-- 8XY5: Vx minus Vy with no-borrow flag (R147). -/
  | subReg (x y : Nibble)
  /-- 8XY6: Vy shifted right by one into Vx (R148). -/
  | shrReg (x y : Nibble)
  /-- 8XY7: Vy minus Vx with no-borrow flag (R149). -/
  | subnReg (x y : Nibble)
  /-- 8XYE: Vy shifted left by one into Vx (R150). -/
  | shlReg (x y : Nibble)
  /-- 9XY0: skip if Vx differs from Vy (R118). -/
  | sneReg (x y : Nibble)
  /-- ANNN: load the index register (R170). -/
  | ldI (nnn : Addr12)
  /-- BNNN: jump to NNN plus V0 (R114). -/
  | jpV0 (nnn : Addr12)
  /-- CXKK: random byte masked by the immediate (R151). -/
  | rnd (x : Nibble) (kk : Byte)
  /-- DXYN: draw an N-row sprite at (Vx, Vy) (R191). -/
  | drw (x y n : Nibble)
  /-- EX9E: skip if key Vx is pressed (R221). -/
  | skp (x : Nibble)
  /-- EXA1: skip if key Vx is not pressed (R222). -/
  | sknp (x : Nibble)
  /-- FX07: read the delay timer (R210). -/
  | ldVxDT (x : Nibble)
  /-- FX0A: wait for a key (R223). -/
  | ldVxK (x : Nibble)
  /-- FX15: set the delay timer (R211). -/
  | ldDTVx (x : Nibble)
  /-- FX18: set the sound timer (R212). -/
  | ldSTVx (x : Nibble)
  /-- FX1E: add Vx to I, saturating (R171). -/
  | addI (x : Nibble)
  /-- FX29: point I at the glyph of Vx (R172). -/
  | ldF (x : Nibble)
  /-- FX33: store the decimal digits of Vx (R173). -/
  | ldB (x : Nibble)
  /-- FX55: store V0 to Vx (R174). -/
  | ldMemVx (x : Nibble)
  /-- FX65: load V0 to Vx (R175). -/
  | ldVxMem (x : Nibble)
deriving DecidableEq, Repr

end Sys2Proof
end

