-- ==== Sys2Proof/WellFormed.lean ====
section
/-!
DEFINITION. Which terms of the syntax are instructions. The operand types already bound every field; the one check
left is the priority of 00E0 and 00EE over 0NNN (R74 of 30_encoding.md, R111 of 41_control_flow.md, conflict C1).
-/
namespace Sys2Proof

/-- The words 00E0 and 00EE are not of the form 0NNN (R74, R111). -/
def sysTarget (nnn : Addr12) : Bool := nnn != 0x0E0 && nnn != 0x0EE

/-- A term that some instruction word stands for. -/
def Instr.wf : Instr → Bool
  | .sys nnn => sysTarget nnn
  | .cls | .ret => true
  | .jp _ | .call _ | .ldI _ | .jpV0 _ => true
  | .seImm _ _ | .sneImm _ _ | .ldImm _ _ | .addImm _ _ | .rnd _ _ => true
  | .seReg _ _ | .sneReg _ _ | .ldReg _ _ | .orReg _ _ | .andReg _ _ | .xorReg _ _ => true
  | .addReg _ _ | .subReg _ _ | .shrReg _ _ | .subnReg _ _ | .shlReg _ _ => true
  | .drw _ _ _ => true
  | .skp _ | .sknp _ => true
  | .ldVxDT _ | .ldVxK _ | .ldDTVx _ | .ldSTVx _ => true
  | .addI _ | .ldF _ | .ldB _ | .ldMemVx _ | .ldVxMem _ => true

end Sys2Proof
end

