-- ==== Sys2Proof/Decode.lean ====
section
/-!
DEFINITION. The decoder and the encoder (30_encoding.md). The decoder is total: a word that matches no row of the
opcode map is rejected as `invalidOpcode` with the word, a byte list too short for a word as `truncated`.
-/
namespace Sys2Proof

/-- Why bytes are not an instruction. -/
inductive DecodeError where
  /-- Fewer than the two bytes of an instruction (R70). -/
  | truncated
  /-- The word matches no row of the opcode map (R74, R76). -/
  | invalidOpcode (word : Word)
deriving DecidableEq, Repr

/-- `op` = n0 = w[15:12] (R70, R71). -/
def opField (w : Word) : Nibble := w.extractLsb' 12 4

/-- `x` = n1 = w[11:8] (R71). -/
def xField (w : Word) : Nibble := w.extractLsb' 8 4

/-- `y` = n2 = w[7:4] (R71). -/
def yField (w : Word) : Nibble := w.extractLsb' 4 4

/-- `n` = n3 = w[3:0] (R71). -/
def nField (w : Word) : Nibble := w.extractLsb' 0 4

/-- `addr` = NNN = w[11:0] (R71). -/
def addrField (w : Word) : Addr12 := w.extractLsb' 0 12

/-- `byte` = KK = w[7:0] (R71). -/
def byteField (w : Word) : Byte := w.extractLsb' 0 8

/-- Group 0: 00E0 and 00EE win over 0NNN (R74, conflict C1). -/
def decodeGroup0 (w : Word) : Instr :=
  if addrField w = 0x0E0 then .cls
  else if addrField w = 0x0EE then .ret
  else .sys (addrField w)

/-- Group 8: the low nibble selects the operation (R75); 8XYn with n in 8 to D or F is no instruction (R76, R152). -/
def decodeGroup8 (w : Word) : Except DecodeError Instr :=
  let x := xField w
  let y := yField w
  match nField w with
  | 0x0#4 => .ok (.ldReg x y)
  | 0x1#4 => .ok (.orReg x y)
  | 0x2#4 => .ok (.andReg x y)
  | 0x3#4 => .ok (.xorReg x y)
  | 0x4#4 => .ok (.addReg x y)
  | 0x5#4 => .ok (.subReg x y)
  | 0x6#4 => .ok (.shrReg x y)
  | 0x7#4 => .ok (.subnReg x y)
  | 0xE#4 => .ok (.shlReg x y)
  | _ => .error (.invalidOpcode w)

/-- Group E: the low byte selects the key test (R75, R76). -/
def decodeGroupE (w : Word) : Except DecodeError Instr :=
  match byteField w with
  | 0x9E#8 => .ok (.skp (xField w))
  | 0xA1#8 => .ok (.sknp (xField w))
  | _ => .error (.invalidOpcode w)

/-- Group F: the low byte selects the operation (R75, R76). -/
def decodeGroupF (w : Word) : Except DecodeError Instr :=
  let x := xField w
  match byteField w with
  | 0x07#8 => .ok (.ldVxDT x)
  | 0x0A#8 => .ok (.ldVxK x)
  | 0x15#8 => .ok (.ldDTVx x)
  | 0x18#8 => .ok (.ldSTVx x)
  | 0x1E#8 => .ok (.addI x)
  | 0x29#8 => .ok (.ldF x)
  | 0x33#8 => .ok (.ldB x)
  | 0x55#8 => .ok (.ldMemVx x)
  | 0x65#8 => .ok (.ldVxMem x)
  | _ => .error (.invalidOpcode w)

/-- Groups 5 and 9 need a low nibble of 0 (R76, conflict C6). -/
def decodeLow0 (w : Word) (i : Instr) : Except DecodeError Instr :=
  if nField w = 0 then .ok i else .error (.invalidOpcode w)

/-- Dispatch of a word to its row of the opcode map, or its rejection (R73, R74, R75, R76). -/
def decode (w : Word) : Except DecodeError Instr :=
  match opField w with
  | 0x0#4 => .ok (decodeGroup0 w)
  | 0x1#4 => .ok (.jp (addrField w))
  | 0x2#4 => .ok (.call (addrField w))
  | 0x3#4 => .ok (.seImm (xField w) (byteField w))
  | 0x4#4 => .ok (.sneImm (xField w) (byteField w))
  | 0x5#4 => decodeLow0 w (.seReg (xField w) (yField w))
  | 0x6#4 => .ok (.ldImm (xField w) (byteField w))
  | 0x7#4 => .ok (.addImm (xField w) (byteField w))
  | 0x8#4 => decodeGroup8 w
  | 0x9#4 => decodeLow0 w (.sneReg (xField w) (yField w))
  | 0xA#4 => .ok (.ldI (addrField w))
  | 0xB#4 => .ok (.jpV0 (addrField w))
  | 0xC#4 => .ok (.rnd (xField w) (byteField w))
  | 0xD#4 => .ok (.drw (xField w) (yField w) (nField w))
  | 0xE#4 => decodeGroupE w
  | _ => decodeGroupF w

/-- The word of two bytes, the byte at the lower address first: big-endian (R55). -/
def wordOfBytes (hi lo : Byte) : Word := hi ++ lo

/-- The byte at the lower address of a word, bits [15:8] (R55). -/
def highByte (w : Word) : Byte := w.extractLsb' 8 8

/-- The byte at the higher address of a word, bits [7:0] (R55). -/
def lowByte (w : Word) : Byte := w.extractLsb' 0 8

/-- The decoder on bytes in address order: the instruction and the bytes after it, or why there is none. -/
def decodeBytes : List Byte → Except DecodeError (Instr × List Byte)
  | hi :: lo :: rest => (decode (wordOfBytes hi lo)).map (fun i => (i, rest))
  | _ => .error .truncated

/-- The word of an instruction, from the patterns of the opcode map (R75). -/
def encode : Instr → Word
  | .cls => 0x00E0#16
  | .ret => 0x00EE#16
  | .sys nnn => 0x0#4 ++ nnn
  | .jp nnn => 0x1#4 ++ nnn
  | .call nnn => 0x2#4 ++ nnn
  | .seImm x kk => 0x3#4 ++ x ++ kk
  | .sneImm x kk => 0x4#4 ++ x ++ kk
  | .seReg x y => 0x5#4 ++ x ++ y ++ 0x0#4
  | .ldImm x kk => 0x6#4 ++ x ++ kk
  | .addImm x kk => 0x7#4 ++ x ++ kk
  | .ldReg x y => 0x8#4 ++ x ++ y ++ 0x0#4
  | .orReg x y => 0x8#4 ++ x ++ y ++ 0x1#4
  | .andReg x y => 0x8#4 ++ x ++ y ++ 0x2#4
  | .xorReg x y => 0x8#4 ++ x ++ y ++ 0x3#4
  | .addReg x y => 0x8#4 ++ x ++ y ++ 0x4#4
  | .subReg x y => 0x8#4 ++ x ++ y ++ 0x5#4
  | .shrReg x y => 0x8#4 ++ x ++ y ++ 0x6#4
  | .subnReg x y => 0x8#4 ++ x ++ y ++ 0x7#4
  | .shlReg x y => 0x8#4 ++ x ++ y ++ 0xE#4
  | .sneReg x y => 0x9#4 ++ x ++ y ++ 0x0#4
  | .ldI nnn => 0xA#4 ++ nnn
  | .jpV0 nnn => 0xB#4 ++ nnn
  | .rnd x kk => 0xC#4 ++ x ++ kk
  | .drw x y n => 0xD#4 ++ x ++ y ++ n
  | .skp x => 0xE#4 ++ x ++ 0x9E#8
  | .sknp x => 0xE#4 ++ x ++ 0xA1#8
  | .ldVxDT x => 0xF#4 ++ x ++ 0x07#8
  | .ldVxK x => 0xF#4 ++ x ++ 0x0A#8
  | .ldDTVx x => 0xF#4 ++ x ++ 0x15#8
  | .ldSTVx x => 0xF#4 ++ x ++ 0x18#8
  | .addI x => 0xF#4 ++ x ++ 0x1E#8
  | .ldF x => 0xF#4 ++ x ++ 0x29#8
  | .ldB x => 0xF#4 ++ x ++ 0x33#8
  | .ldMemVx x => 0xF#4 ++ x ++ 0x55#8
  | .ldVxMem x => 0xF#4 ++ x ++ 0x65#8

/-- A row of the opcode map: the bits a word is looked at (`mask`), what they must be (`pattern`), and the
instruction that its other digits give (R74, R75). -/
structure OpRow where
  /-- The row's mnemonic. -/
  mnemonic : String
  /-- The constant digits of the row's pattern. -/
  mask : Word
  /-- What the constant digits are. -/
  pattern : Word
  /-- The row's instruction, its fields read from the word. -/
  build : Word → Instr

/-- A pattern matches when every digit written as a constant equals the word's (R74). -/
def OpRow.hits (r : OpRow) (w : Word) : Bool := w &&& r.mask == r.pattern

/-- The opcode map as the spec prints it (R75): masks and patterns, the rows of higher priority first (R74). The
decoder is written without it; that the two agree is a claim. -/
def opcodeMap : List OpRow :=
  [⟨"CLS", 0xFFFF, 0x00E0, fun _ => .cls⟩,
   ⟨"RET", 0xFFFF, 0x00EE, fun _ => .ret⟩,
   ⟨"SYS_nnn", 0xF000, 0x0000, fun w => .sys (addrField w)⟩,
   ⟨"JP_nnn", 0xF000, 0x1000, fun w => .jp (addrField w)⟩,
   ⟨"CALL_nnn", 0xF000, 0x2000, fun w => .call (addrField w)⟩,
   ⟨"SE_Vx__kk", 0xF000, 0x3000, fun w => .seImm (xField w) (byteField w)⟩,
   ⟨"SNE_Vx__kk", 0xF000, 0x4000, fun w => .sneImm (xField w) (byteField w)⟩,
   ⟨"SE_Vx__Vy", 0xF00F, 0x5000, fun w => .seReg (xField w) (yField w)⟩,
   ⟨"LD_Vx__kk", 0xF000, 0x6000, fun w => .ldImm (xField w) (byteField w)⟩,
   ⟨"ADD_Vx__kk", 0xF000, 0x7000, fun w => .addImm (xField w) (byteField w)⟩] ++
  [⟨"LD_Vx__Vy", 0xF00F, 0x8000, fun w => .ldReg (xField w) (yField w)⟩,
   ⟨"OR_Vx__Vy", 0xF00F, 0x8001, fun w => .orReg (xField w) (yField w)⟩,
   ⟨"AND_Vx__Vy", 0xF00F, 0x8002, fun w => .andReg (xField w) (yField w)⟩,
   ⟨"XOR_Vx__Vy", 0xF00F, 0x8003, fun w => .xorReg (xField w) (yField w)⟩,
   ⟨"ADD_Vx__Vy", 0xF00F, 0x8004, fun w => .addReg (xField w) (yField w)⟩,
   ⟨"SUB_Vx__Vy", 0xF00F, 0x8005, fun w => .subReg (xField w) (yField w)⟩,
   ⟨"SHR_Vx__Vy", 0xF00F, 0x8006, fun w => .shrReg (xField w) (yField w)⟩,
   ⟨"SUBN_Vx__Vy", 0xF00F, 0x8007, fun w => .subnReg (xField w) (yField w)⟩,
   ⟨"SHL_Vx__Vy", 0xF00F, 0x800E, fun w => .shlReg (xField w) (yField w)⟩,
   ⟨"SNE_Vx__Vy", 0xF00F, 0x9000, fun w => .sneReg (xField w) (yField w)⟩] ++
  [⟨"LD_I__nnn", 0xF000, 0xA000, fun w => .ldI (addrField w)⟩,
   ⟨"JP_V0__nnn", 0xF000, 0xB000, fun w => .jpV0 (addrField w)⟩,
   ⟨"RND_Vx__kk", 0xF000, 0xC000, fun w => .rnd (xField w) (byteField w)⟩,
   ⟨"DRW_Vx__Vy__n", 0xF000, 0xD000, fun w => .drw (xField w) (yField w) (nField w)⟩,
   ⟨"SKP_Vx", 0xF0FF, 0xE09E, fun w => .skp (xField w)⟩,
   ⟨"SKNP_Vx", 0xF0FF, 0xE0A1, fun w => .sknp (xField w)⟩] ++
  [⟨"LD_Vx__DT", 0xF0FF, 0xF007, fun w => .ldVxDT (xField w)⟩,
   ⟨"LD_Vx__K", 0xF0FF, 0xF00A, fun w => .ldVxK (xField w)⟩,
   ⟨"LD_DT__Vx", 0xF0FF, 0xF015, fun w => .ldDTVx (xField w)⟩,
   ⟨"LD_ST__Vx", 0xF0FF, 0xF018, fun w => .ldSTVx (xField w)⟩,
   ⟨"ADD_I__Vx", 0xF0FF, 0xF01E, fun w => .addI (xField w)⟩,
   ⟨"LD_F__Vx", 0xF0FF, 0xF029, fun w => .ldF (xField w)⟩,
   ⟨"LD_B__Vx", 0xF0FF, 0xF033, fun w => .ldB (xField w)⟩,
   ⟨"LD__I___Vx", 0xF0FF, 0xF055, fun w => .ldMemVx (xField w)⟩,
   ⟨"LD_Vx___I", 0xF0FF, 0xF065, fun w => .ldVxMem (xField w)⟩]

/-- The first row of the opcode map that a word matches. -/
def matchingRow (w : Word) : Option OpRow := opcodeMap.find? (fun r => r.hits w)

/-- The bytes of an instruction as memory holds them (R55, R56). -/
def encodeBytes (i : Instr) : List Byte := [highByte (encode i), lowByte (encode i)]

/-- The instruction word whose low `nbits` bits are those of `w`, every bit above them 0: the opcode table numbers
bit 0 as the least significant bit of the one 16-bit word. -/
def tableWord (nbits w : Nat) : Word := BitVec.ofNat 16 (w % 2 ^ nbits)

/-- What the decoder reads from the bytes of a table word as memory holds them. -/
def decodeTableWord (nbits w : Nat) : Option Instr :=
  match decodeBytes [highByte (tableWord nbits w), lowByte (tableWord nbits w)] with
  | .ok (i, _) => some i
  | .error _ => none

end Sys2Proof
end

