-- ==== Sys2Proof/Machine/Fetch.lean ====
section
/-!
DEFINITION. Fetching an instruction (R55 of 20_memory.md, R92 and R93 of 40_cycle.md) and placing one for the fetch.
-/
namespace Sys2Proof.Machine

/-- `FetchWord(a)`: the byte at `a` above the byte at `a + 1` (R11, R55). -/
def wordAt (m : Memory) (a : Nat) : Word := wordOfBytes (memRead m a) (memRead m (a + 1))

/-- The fault that a word without a row of the opcode map raises (R93, R241). -/
def decodeFault (w : Word) : DecodeError → Fault
  | .invalidOpcode w' => .invalidOpcode w'
  | .truncated => .invalidOpcode w

/-- The instruction at PC, or the fault of its fetch or dispatch, in the order of R248: AddressOverflow if PC or
PC + 1 is above 0xFFF (R92), then InvalidOpcode with the whole word (R93). -/
def fetchInstr (s : State) : Except Fault Instr :=
  if spanOk s.PC.toNat Config.insnBytes then
    match decode (wordAt s.mem s.PC.toNat) with
    | .ok i => .ok i
    | .error e => .error (decodeFault (wordAt s.mem s.PC.toNat) e)
  else .error .addressOverflow

/-- An instruction word laid out where the next fetch reads it: big-endian at PC (R55). -/
def placeWord (s : State) (w : Word) : State := s.storeBytes s.PC.toNat [highByte w, lowByte w]

end Sys2Proof.Machine
end

