-- ==== Sys2Proof/Machine/Step.lean ====
section
/-!
DEFINITION. One `step()` of the core (40_cycle.md).
-/
namespace Sys2Proof.Machine

/-- `step()` (R90): a faulted core answers its fault again (R91); else the instruction at PC is fetched, decoded and
executed, or the fault of its fetch or dispatch is answered (R92, R93, R248). -/
def step (s : State) : Host.Outcome State Fault Refusal :=
  match s.fault with
  | some k => raiseFault k
  | none =>
    match fetchInstr s with
    | .error k => raiseFault k
    | .ok i => exec i s

/-- `s` with an instruction word, its bits numbered as the opcode table numbers them, stored at PC. -/
def State.withFetchWord (s : State) (nbits w : Nat) : State := placeWord s (tableWord nbits w)

end Sys2Proof.Machine
end

