-- ==== Sys2Proof/Machine/Boot.lean ====
section
/-!
DEFINITION. Initialisation with a program image (R270 to R274 of 70_reset_and_hazards.md).
-/
namespace Sys2Proof.Machine

/-- The program image written verbatim from 0x200 on (R272). -/
def loadImage (image : List Byte) (s : State) : State := s.storeBytes Config.progBase image

/-- Reset with a program image: create the state, the font in place (`unlistedByte`), load the image, PC = 0x200
(R274). An image longer than 3584 bytes is refused (R272, D19). -/
def boot (image : List Byte) : Result :=
  if image.length ≤ Config.progMax then .next (loadImage image State.reset)
  else .refused (.imageTooLong image.length)

end Sys2Proof.Machine
end

