-- ==== Sys2Proof/Machine/HostMoves.lean ====
section
/-!
DEFINITION. The host's moves (R252 of 60_exceptions.md): every operation the outside can make on the core, with the
state it leaves and the answer it returns. The interleaving is left free (R12, R279): a run is a list of moves.
-/
namespace Sys2Proof.Machine

/-- The moves of R252. A key index outside 0 to 15 is no move (R220, D25). -/
inductive Move where
  /-- `step()`: execute one instruction (R90). -/
  | step
  /-- `tick()`: count both timers down (R213). -/
  | tick
  /-- `keySet(k)`: key k is pressed (R220). -/
  | keySet (k : Fin 16)
  /-- `keyClear(k)`: key k is released (R220). -/
  | keyClear (k : Fin 16)
  /-- `readFrame()`: the renderer reads the grid and the dirty flag. -/
  | readFrame
  /-- `clearDirty()`: the renderer has consumed the frame (R30). -/
  | clearDirty
  /-- `readTone()`: the audio sink reads the tone output (R214). -/
  | readTone
  /-- `readTimers()`: DT and ST are read. -/
  | readTimers
deriving DecidableEq, Repr

/-- What a move returns (the column "returns" of R252). -/
inductive Reply where
  /-- `Ok`: an instruction completed, a waiting FX0A included, or the timers were ticked (R100, R213). -/
  | ok
  /-- `Fault(kind)` (R100, R246). -/
  | fault (k : Fault)
  /-- No meaning for the instruction; no `step()` of this model answers it. -/
  | refused (r : Refusal)
  /-- Nothing is returned. -/
  | nothing
  /-- The grid and the dirty flag. -/
  | frame (fb : Frame) (dirty : Bool)
  /-- The tone output. -/
  | tone (on : Bool)
  /-- The two timers. -/
  | timers (dt st : Byte)
deriving DecidableEq, Repr

/-- The state a `step()` or `tick()` call leaves and its typed result: a fault is recorded in the state and nothing
else changes (R90, R246). -/
def settle (s : State) (r : Result) : State × Reply :=
  match r with
  | .next t => (t, .ok)
  | .fault k => (s.raise k, .fault k)
  | .refused r => (s, .refused r)

/-- `step()` in full: `Machine.step` with the state that a fault leaves (R90, R246). -/
def stepCall (s : State) : State × Reply := settle s (step s)

/-- `tick()` in full (R213). -/
def tickCall (s : State) : State × Reply := settle s (tick s)

/-- What a move of the host does (R252). -/
def Move.apply (m : Move) (s : State) : State × Reply :=
  match m with
  | .step => stepCall s
  | .tick => tickCall s
  | .keySet k => (Sys2Proof.Machine.keySet k s, .nothing)
  | .keyClear k => (Sys2Proof.Machine.keyClear k s, .nothing)
  | .readFrame => (s, .frame s.FB s.dirty)
  | .clearDirty => (s.clearDirtyFlag, .nothing)
  | .readTone => (s, .tone (toneEnabled s))
  | .readTimers => (s, .timers s.DT s.ST)

/-- The state after a list of moves, one at a time in any order the host chooses (R12, R253). -/
def runMoves : List Move → State → State
  | [], s => s
  | m :: ms, s => runMoves ms (m.apply s).1

end Sys2Proof.Machine
end

