-- ==== Sys2Proof/Safety.lean ====
section
/-!
DEFINITION. The terms in which claims speak of safe runs: frames, the machine's invariant, safe steps.
-/
namespace Sys2Proof.Machine

/-- The pieces of the state, for frames. -/
inductive Piece where
  | V | I | PC | stack | DT | ST | mem | FB | dirty | key | wait | fault | draws
deriving DecidableEq, Repr

/-- Two states agree on one piece. Memory is compared byte by byte, at every address. -/
def Piece.same (p : Piece) (s t : State) : Prop :=
  match p with
  | .V => ∀ j : Nibble, t.readV j = s.readV j
  | .I => t.I = s.I
  | .PC => t.PC = s.PC
  | .stack => t.stack = s.stack
  | .DT => t.DT = s.DT
  | .ST => t.ST = s.ST
  | .mem => ∀ a : Nat, memRead t.mem a = memRead s.mem a
  | .FB => ∀ px py : Nat, pixel t.FB px py = pixel s.FB px py
  | .dirty => t.dirty = s.dirty
  | .key => ∀ k : Fin 16, keyDown t k = keyDown s k
  | .wait => t.wait = s.wait
  | .fault => t.fault = s.fault
  | .draws => t.draws = s.draws

/-- From `s` to `t` nothing changes but, perhaps, the pieces named. -/
def OnlyChanges (ps : List Piece) (s t : State) : Prop := ∀ p : Piece, p ∉ ps → p.same s t

/-- Vx holds the result and VF the flag, as 0 or 1; every other register is as before. With x = F the flag is what
VF holds and the result is lost (R97). -/
def ResultAndFlag (x : Nibble) (result : Nat) (flag : Prop) (s t : State) : Prop :=
  (x ≠ 0xF#4 → (t.readV x).toNat = result) ∧
  (flag → t.readV 0xF#4 = 1#8) ∧ (¬flag → t.readV 0xF#4 = 0#8) ∧
  ∀ j : Nibble, j ≠ x → j ≠ 0xF#4 → t.readV j = s.readV j

/-- Every register but Vx is as before: VF too, unless it is Vx (R22). -/
def RegsKeptBut (x : Nibble) (s t : State) : Prop := ∀ j : Nibble, j ≠ x → t.readV j = s.readV j

/-- Every byte outside the `n` addresses from `a` on is as before. -/
def BytesKeptBut (a n : Nat) (s t : State) : Prop :=
  ∀ b : Nat, b < a ∨ a + n ≤ b → memRead t.mem b = memRead s.mem b

/-- The words that R76 lists as no instruction. -/
def InvalidWord (w : Word) : Prop :=
  (opField w = 0x5#4 ∧ nField w ≠ 0x0#4) ∨
  (opField w = 0x8#4 ∧ nField w ∈ [0x8#4, 0x9#4, 0xA#4, 0xB#4, 0xC#4, 0xD#4, 0xF#4]) ∨
  (opField w = 0x9#4 ∧ nField w ≠ 0x0#4) ∨
  (opField w = 0xE#4 ∧ byteField w ∉ [0x9E#8, 0xA1#8]) ∨
  (opField w = 0xF#4 ∧
    byteField w ∉ [0x07#8, 0x0A#8, 0x15#8, 0x18#8, 0x1E#8, 0x29#8, 0x33#8, 0x55#8, 0x65#8])

/-- The pieces of the state an instruction may write, as its rule gives them (R90 to R223). -/
def writesOf (i : Instr) : List Piece :=
  match i with
  | .cls => [.PC, .FB, .dirty]
  | .ret | .call _ => [.PC, .stack]
  | .sys _ | .jp _ | .jpV0 _ => [.PC]
  | .seImm _ _ | .sneImm _ _ | .seReg _ _ | .sneReg _ _ | .skp _ | .sknp _ => [.PC]
  | .ldImm _ _ | .addImm _ _ | .ldReg _ _ | .orReg _ _ | .andReg _ _ | .xorReg _ _ => [.PC, .V]
  | .addReg _ _ | .subReg _ _ | .shrReg _ _ | .subnReg _ _ | .shlReg _ _ | .ldVxDT _ => [.PC, .V]
  | .rnd _ _ => [.PC, .V, .draws]
  | .drw _ _ _ => [.PC, .FB, .dirty, .V]
  | .ldVxK _ => [.PC, .V, .wait]
  | .ldDTVx _ => [.PC, .DT]
  | .ldSTVx _ => [.PC, .ST]
  | .ldI _ | .addI _ | .ldF _ => [.PC, .I]
  | .ldB _ => [.PC, .mem]
  | .ldMemVx _ => [.PC, .mem, .I]
  | .ldVxMem _ => [.PC, .V, .I]

/-- The check of an instruction that fails, and the fault it raises (R240, R248): each instruction has at most one. -/
def FaultCause (i : Instr) (s : State) (k : Fault) : Prop :=
  match i with
  | .ret => s.stack = [] ∧ k = .stackUnderflow
  | .call _ => 16 ≤ s.stack.length ∧ k = .stackOverflow
  | .drw _ _ n => 0 < n.toNat ∧ 0xFFF < s.I.toNat + n.toNat - 1 ∧ k = .addressOverflow
  | .ldB _ => 0xFFF < s.I.toNat + 2 ∧ k = .addressOverflow
  | .ldMemVx x | .ldVxMem x => 0xFFF < s.I.toNat + x.toNat ∧ k = .addressOverflow
  | .skp x | .sknp x => 15 < (s.readV x).toNat ∧ k = .invalidKey (s.readV x)
  | .cls | .sys _ | .jp _ | .jpV0 _ => False
  | .seImm _ _ | .sneImm _ _ | .seReg _ _ | .sneReg _ _ => False
  | .ldImm _ _ | .addImm _ _ | .ldReg _ _ | .orReg _ _ | .andReg _ _ | .xorReg _ _ => False
  | .addReg _ _ | .subReg _ _ | .shrReg _ _ | .subnReg _ _ | .shlReg _ _ | .rnd _ _ => False
  | .ldI _ | .addI _ | .ldF _ => False
  | .ldVxDT _ | .ldVxK _ | .ldDTVx _ | .ldSTVx _ => False

/-- The PC values an instruction may leave (R94 and the row's policy in R75): Keep with the target its rule gives,
Step, Skip. -/
def PolicyAllows (i : Instr) (s : State) (pc : Word) : Prop :=
  match i with
  | .ret => s.stack.getLast? = some pc
  | .sys nnn | .jp nnn | .call nnn => pc.toNat = nnn.toNat
  | .jpV0 nnn => pc.toNat = nnn.toNat + (s.readV 0x0#4).toNat
  | .seImm _ _ | .sneImm _ _ | .seReg _ _ | .sneReg _ _ | .skp _ | .sknp _ => pc = s.PC + 2 ∨ pc = s.PC + 4
  | .ldVxK _ => pc = s.PC ∨ pc = s.PC + 2
  | .cls | .drw _ _ _ => pc = s.PC + 2
  | .ldImm _ _ | .addImm _ _ | .ldReg _ _ | .orReg _ _ | .andReg _ _ | .xorReg _ _ => pc = s.PC + 2
  | .addReg _ _ | .subReg _ _ | .shrReg _ _ | .subnReg _ _ | .shlReg _ _ | .rnd _ _ => pc = s.PC + 2
  | .ldI _ | .addI _ | .ldF _ | .ldB _ | .ldMemVx _ | .ldVxMem _ => pc = s.PC + 2
  | .ldVxDT _ | .ldDTVx _ | .ldSTVx _ => pc = s.PC + 2

/-- The flag-defining instructions: exactly 8XY4, 8XY5, 8XY6, 8XY7, 8XYE and DXYN (R22). -/
def DefinesFlag (i : Instr) : Prop :=
  match i with
  | .addReg _ _ | .subReg _ _ | .shrReg _ _ | .subnReg _ _ | .shlReg _ _ | .drw _ _ _ => True
  | .cls | .ret | .sys _ | .jp _ | .call _ | .jpV0 _ => False
  | .seImm _ _ | .sneImm _ _ | .seReg _ _ | .sneReg _ _ | .skp _ | .sknp _ => False
  | .ldImm _ _ | .addImm _ _ | .ldReg _ _ | .orReg _ _ | .andReg _ _ | .xorReg _ _ | .rnd _ _ => False
  | .ldI _ | .addI _ | .ldF _ | .ldB _ | .ldMemVx _ | .ldVxMem _ => False
  | .ldVxDT _ | .ldVxK _ | .ldDTVx _ | .ldSTVx _ => False

/-- VF is named as a destination: by X, or as the last register of the block of FX65 (R22). -/
def NamesVF (i : Instr) : Prop :=
  match i with
  | .ldImm x _ | .addImm x _ | .rnd x _ => x = flagReg
  | .ldReg x _ | .orReg x _ | .andReg x _ | .xorReg x _ => x = flagReg
  | .addReg x _ | .subReg x _ | .shrReg x _ | .subnReg x _ | .shlReg x _ => x = flagReg
  | .ldVxDT x | .ldVxK x | .ldVxMem x => x = flagReg
  | .cls | .ret | .sys _ | .jp _ | .call _ | .jpV0 _ => False
  | .seImm _ _ | .sneImm _ _ | .seReg _ _ | .sneReg _ _ | .skp _ | .sknp _ => False
  | .ldI _ | .addI _ | .ldF _ | .ldB _ | .ldMemVx _ | .drw _ _ _ => False
  | .ldDTVx _ | .ldSTVx _ => False

/-- The answer of a step with its next state changed by `f`, to compare two runs. -/
def mapNext (f : State → State) : Result → Result
  | .next t => .next (f t)
  | .fault k => .fault k
  | .refused r => .refused r

/-- The sprite bit that a sprite of these rows, drawn at (x0, y0), brings to the pixel (px, py): column px - x0 of
row py - y0, and no bit outside the sprite or outside the 64 by 32 grid (R191, R192, R193). -/
def spriteAt (rows : List Byte) (x0 y0 px py : Nat) : Bool :=
  decide (x0 ≤ px ∧ px < x0 + 8 ∧ y0 ≤ py ∧ px ≤ 63 ∧ py ≤ 31) &&
    spriteBit (rows.getD (py - y0) 0) (px - x0)

/-- The bit that row `r`, column `c` of the sprite at I has in memory (R191, R192). -/
def rowBit (s : State) (r c : Nat) : Bool := (memRead s.mem (s.I.toNat + r)).getLsbD (7 - c)

/-- Row `r`, column `c` of an N-row sprite at (Vx, Vy) falls on the 64 by 32 grid (R191, R193). -/
def OnScreen (s : State) (x y n : Nibble) (r c : Nat) : Prop :=
  r < n.toNat ∧ c < 8 ∧ (s.readV x).toNat + c ≤ 63 ∧ (s.readV y).toNat + r ≤ 31

/-- The instruction at PC is a key wait: what R32 says of the core while it awaits a key. -/
def AtKeyWait (s : State) : Prop := ∃ x : Nibble, fetchInstr s = .ok (.ldVxK x)

/-- The machine's invariant: memory in canonical form, at most 16 return addresses (R26), each at most 0x1000 and PC
at most 0x10FE (R24), and PC at the FX0A that is awaiting a key (R32). -/
structure Inv (s : State) : Prop where
  /-- Memory is in canonical form. -/
  mem : Memory.wf s.mem
  /-- The call stack holds at most 16 entries (R26). -/
  depth : s.stack.length ≤ Config.stackDepth
  /-- Every return address is one a call can push (R24, R113). -/
  returns : ∀ a ∈ s.stack, a.toNat ≤ 0x1000
  /-- PC never exceeds 0x10FE (R24). -/
  pc : s.PC.toNat ≤ 0x10FE
  /-- While the core awaits a key, PC addresses the FX0A (R32). -/
  wait : s.wait = .awaitingKey → AtKeyWait s

/-- A step that completes: the instruction at PC ran and raised no fault (R100). -/
def SafeStep (s : State) : Prop := ∃ t : State, step s = .next t

/-- A run of the core alone, `n` steps long, in which every step completes. -/
def SafeRun : Nat → State → Prop
  | 0, _ => True
  | n + 1, s => ∃ t : State, step s = .next t ∧ SafeRun n t

end Sys2Proof.Machine
end

