-- ==== Sys2Proof/Certificates/Slice0/Obligations.lean ====
section
/-!
DEFINITION. The statements for the provers, from the numbered rules of spec/.
-/
open Sys2Proof Sys2Proof.Machine

/-! ## Encoding -/

/-- R73, with the fields of R71: the word is rebuilt exactly from its nibbles, and NNN and KK are made of them. -/
def Obligations.FieldsRebuildWord : Prop :=
  ∀ w : Word,
    w.toNat = (opField w).toNat * 0x1000 + (xField w).toNat * 0x100 + (yField w).toNat * 0x10 + (nField w).toNat ∧
    (addrField w).toNat = (xField w).toNat * 0x100 + (yField w).toNat * 0x10 + (nField w).toNat ∧
    (byteField w).toNat = (yField w).toNat * 0x10 + (nField w).toNat

/-- Decoding the word of a well-formed instruction gives the instruction back, every operand at every value
(30_encoding.md, sections 2 and 3). -/
def Obligations.DecodeEncode : Prop :=
  ∀ i : Instr, i.wf = true → decode (encode i) = .ok i

/-- Each word has one meaning: what a word decodes to is well-formed and encodes to that word (30_encoding.md,
sections 2 and 3). -/
def Obligations.EncodeDecode : Prop :=
  ∀ (w : Word) (i : Instr), decode w = .ok i → i.wf = true ∧ encode i = w

/-- The decoder selects the first row of the opcode map that the word matches and rejects a word that matches none;
two rows match one word only where the second is 0NNN. That 00E0 and 00EE win over 0NNN is the spec's decision D6
(30_encoding.md, sections 2 and 3). -/
def Obligations.DispatchSelectsRow : Prop :=
  (∀ w : Word, decode w =
    match matchingRow w with
    | some r => .ok (r.build w)
    | none => .error (.invalidOpcode w)) ∧
  opcodeMap.Pairwise (fun r r' => ∀ w : Word, r.hits w = true → r'.hits w = true →
    r'.mask = 0xF000#16 ∧ r'.pattern = 0x0000#16)

/-- The words that are no instruction are exactly those of the table of 30_encoding.md section 4. That the constant
low digits are matched strictly is the spec's decision D5. -/
def Obligations.InvalidWordsRejected : Prop :=
  ∀ w : Word, (InvalidWord w ↔ decode w = .error (.invalidOpcode w)) ∧ (¬InvalidWord w ↔ ∃ i, decode w = .ok i)

/-- Words written out from the patterns of the opcode map, at least one of each of the sixteen groups (30_encoding.md
section 3). -/
def Obligations.SampleWords : Prop :=
  decode 0x00E0 = .ok .cls ∧ decode 0x00EE = .ok .ret ∧ decode 0x0123 = .ok (.sys 0x123) ∧
  decode 0x1ABC = .ok (.jp 0xABC) ∧ decode 0x2300 = .ok (.call 0x300) ∧ decode 0x3310 = .ok (.seImm 3 0x10) ∧
  decode 0x4311 = .ok (.sneImm 3 0x11) ∧ decode 0x5120 = .ok (.seReg 1 2) ∧ decode 0x6A42 = .ok (.ldImm 0xA 0x42) ∧
  decode 0x7002 = .ok (.addImm 0 0x02) ∧ decode 0x8124 = .ok (.addReg 1 2) ∧
  decode 0x812E = .ok (.shlReg 1 2) ∧ decode 0x9120 = .ok (.sneReg 1 2) ∧ decode 0xA123 = .ok (.ldI 0x123) ∧
  decode 0xB300 = .ok (.jpV0 0x300) ∧ decode 0xC10F = .ok (.rnd 1 0x0F) ∧
  decode 0xD01F = .ok (.drw 0 1 0xF) ∧ decode 0xE19E = .ok (.skp 1) ∧ decode 0xF10A = .ok (.ldVxK 1) ∧
  decode 0xF265 = .ok (.ldVxMem 2)

/-- An instruction laid out in memory order is its two bytes, most significant first, and the decoder takes exactly
those two (20_memory.md section 3, 30_encoding.md section 1). -/
def Obligations.DecodeBytesTakesTwo : Prop :=
  ∀ (i : Instr) (rest : List Byte), i.wf = true →
    decodeBytes (encodeBytes i ++ rest) = .ok (i, rest) ∧
    encodeBytes i = [BitVec.ofNat 8 ((encode i).toNat / 256), BitVec.ofNat 8 ((encode i).toNat % 256)]

/-! ## Reset and initialisation -/

/-- What reset leaves in every field of the spec's state record (10_state.md section 12, 70_reset_and_hazards.md
section 1), with an empty program image: each register, each pixel of the grid, each byte of memory. The values of DT
and ST are the open parameters, of which only the range 1 to 255 is known (D17), the font bytes are the open parameter
`FONT_GLYPHS` (D8). -/
def Obligations.ResetState : Prop :=
  (∀ j : Nibble, State.reset.readV j = 0#8) ∧ State.reset.I = 0x0000 ∧ State.reset.PC = 0x0200 ∧
  State.reset.stack = [] ∧
  State.reset.DT = Config.delayInit ∧ 1 ≤ State.reset.DT.toNat ∧
  State.reset.ST = Config.soundInit ∧ 1 ≤ State.reset.ST.toNat ∧
  (∀ px py : Nat, px ≤ 63 → py ≤ 31 → pixel State.reset.FB px py = false) ∧ State.reset.dirty = false ∧
  (∀ k : Fin 16, keyDown State.reset k = false) ∧ State.reset.wait = .idle ∧ State.reset.fault = none ∧
  (∀ (a : Nat) (h : 0x050 ≤ a ∧ a ≤ 0x09F),
    memRead State.reset.mem a = Config.fontGlyphs[a - 0x050]'(by simp only [Config.fontLength]; omega)) ∧
  (∀ a : Nat, a ≤ 0xFFF → a < 0x050 ∨ 0x09F < a → memRead State.reset.mem a = 0#8)

/-- The program image is written verbatim from 0x200 on, every other byte and every other piece of state is as at
reset; an image longer than 3584 bytes is refused, which is the spec's decision D19 (70_reset_and_hazards.md
section 1). -/
def Obligations.BootLoadsImage : Prop :=
  ∀ image : List Byte,
    (image.length ≤ 3584 → ∃ s, boot image = .next s ∧ s.PC = 0x0200 ∧
      (∀ (k : Nat) (h : k < image.length), memRead s.mem (0x200 + k) = image[k]) ∧
      BytesKeptBut 0x200 image.length State.reset s ∧ OnlyChanges [.mem] State.reset s) ∧
    (3584 < image.length → boot image = .refused (.imageTooLong image.length))

/-- The machine's invariant holds at reset. -/
def Obligations.ResetInv : Prop := Inv State.reset

/-! ## The cycle -/

/-- A step runs the decoded instruction: on a core without a fault, when the two bytes at PC lie inside memory and
their big-endian word decodes to an instruction, `step` is that instruction's effect, and nothing is done around it
(40_cycle.md section 1). -/
def Obligations.StepRunsInstruction : Prop :=
  ∀ (s : State) (i : Instr), s.fault = none → s.PC.toNat + 1 ≤ 0xFFF →
    decode (memRead s.mem s.PC.toNat ++ memRead s.mem (s.PC.toNat + 1)) = .ok i → step s = exec i s

/-- A `step()` or `tick()` on a faulted core answers the same fault and changes nothing: the spec's decision D13
(40_cycle.md section 1, 45_timers.md section 2). -/
def Obligations.FaultedCoreStays : Prop :=
  ∀ (s : State) (k : Fault), s.fault = some k →
    step s = .fault k ∧ tick s = .fault k ∧ stepCall s = (s, .fault k) ∧ tickCall s = (s, .fault k)

/-- The fetch faults when PC or PC + 1 is above 0xFFF; that the fault is the fetch's, not the jump's, is the spec's
decision D3 (40_cycle.md section 1). -/
def Obligations.FetchOverflow : Prop :=
  ∀ s : State, s.fault = none → 0xFFF < s.PC.toNat + 1 → step s = .fault .addressOverflow

/-- A fetched word that matches no row raises InvalidOpcode with the whole word, exactly for the words of the table of
30_encoding.md section 4; it is never a silent no-op. Which words those are is the spec's decision D5 (60_exceptions.md
section 1). -/
def Obligations.InvalidOpcodeRaised : Prop :=
  ∀ s : State, s.fault = none → s.PC.toNat + 1 ≤ 0xFFF →
    (InvalidWord (memRead s.mem s.PC.toNat ++ memRead s.mem (s.PC.toNat + 1)) →
      step s = .fault (.invalidOpcode (memRead s.mem s.PC.toNat ++ memRead s.mem (s.PC.toNat + 1)))) ∧
    (∀ w : Word, step s = .fault (.invalidOpcode w) →
      w = memRead s.mem s.PC.toNat ++ memRead s.mem (s.PC.toNat + 1) ∧ InvalidWord w)

/-- When a step completes, and which fault it answers otherwise: the faulted state first, then the fetch, then
dispatch, then the instruction's own check. The order is the spec's decision D21 (60_exceptions.md section 2). -/
def Obligations.StepOutcome : Prop :=
  (∀ s : State, SafeStep s ↔ s.fault = none ∧ s.PC.toNat + 1 ≤ 0xFFF ∧
    ∃ i, decode (memRead s.mem s.PC.toNat ++ memRead s.mem (s.PC.toNat + 1)) = .ok i ∧ ∀ k, ¬FaultCause i s k) ∧
  (∀ (s : State) (k : Fault), step s = .fault k ↔ s.fault = some k ∨ (s.fault = none ∧
    ((0xFFF < s.PC.toNat + 1 ∧ k = .addressOverflow) ∨ (s.PC.toNat + 1 ≤ 0xFFF ∧
      ((InvalidWord (memRead s.mem s.PC.toNat ++ memRead s.mem (s.PC.toNat + 1)) ∧
          k = .invalidOpcode (memRead s.mem s.PC.toNat ++ memRead s.mem (s.PC.toNat + 1))) ∨
        ∃ i, decode (memRead s.mem s.PC.toNat ++ memRead s.mem (s.PC.toNat + 1)) = .ok i ∧ FaultCause i s k)))))

/-- What a faulting `step()` leaves: only `fault` is set, so PC still addresses the faulting instruction; and from
there every run of moves keeps the fault and everything else but the key latch and the dirty flag, which the host may
still change. The absorbing fault is the spec's decision D13 (40_cycle.md section 3, 60_exceptions.md section 2). -/
def Obligations.FaultIsPreciseAndFinal : Prop :=
  ∀ (s : State) (k : Fault), step s = .fault k →
    (stepCall s).2 = .fault k ∧ (stepCall s).1.fault = some k ∧ OnlyChanges [.fault] s (stepCall s).1 ∧
    ∀ ms : List Move, OnlyChanges [.key, .dirty] (stepCall s).1 (runMoves ms (stepCall s).1)

/-- The result of `step()` is Ok exactly when the instruction completed, and Fault(kind) exactly when it raised a
fault; no `step()` is refused. An FX0A that finds no key pressed answers Ok too and leaves the core awaiting one: the
spec's decision D35 (40_cycle.md section 3). -/
def Obligations.StepResult : Prop :=
  ∀ s : State,
    ((stepCall s).2 = .ok ↔ ∃ t, step s = .next t) ∧
    (∀ t, step s = .next t → (stepCall s).1 = t) ∧
    (∀ k, (stepCall s).2 = .fault k ↔ step s = .fault k) ∧
    (∀ r, step s ≠ .refused r) ∧
    ∀ x : Nibble, s.fault = none → s.PC.toNat + 1 ≤ 0xFFF →
      decode (memRead s.mem s.PC.toNat ++ memRead s.mem (s.PC.toNat + 1)) = .ok (.ldVxK x) →
      (∀ k : Fin 16, keyDown s k = false) → (stepCall s).2 = .ok ∧ (stepCall s).1.wait = .awaitingKey

/-- An instruction faults exactly when its one check fails, and with the fault of that check; it never answers
anything but a next state or that fault. InvalidKey is the spec's own kind, decision D14 (60_exceptions.md sections 1
and 2). -/
def Obligations.FaultsHaveCauses : Prop :=
  ∀ (i : Instr) (s : State),
    (∀ k, exec i s = .fault k ↔ FaultCause i s k) ∧ (∀ r, exec i s ≠ .refused r) ∧
    ((∀ k, ¬FaultCause i s k) → ∃ t, exec i s = .next t)

/-- Every completed instruction applies the PC policy of its row: Keep with its own target, Step or Skip
(40_cycle.md section 2). -/
def Obligations.PolicyOfRow : Prop :=
  ∀ (i : Instr) (s t : State), exec i s = .next t → PolicyAllows i s t.PC

/-- The frame of every instruction: a completed instruction changes no piece of state that its rule does not have it
write. So only call and return touch the stack, only FX33 and FX55 memory, only 00E0 and DXYN the framebuffer and the
dirty flag, only FX0A `wait`, only FX15 DT, only FX18 ST, nothing the key latch or the fault (10_state.md sections 3
to 9, 20_memory.md section 2). -/
def Obligations.OnlyItsOwnWrites : Prop :=
  ∀ (i : Instr) (s t : State), exec i s = .next t → OnlyChanges (writesOf i) s t

/-- VF after an instruction: 0 or 1 after a flag-defining one; unchanged after any other that does not name VF as its
destination. The second half is the spec's decision D31 (10_state.md section 2). -/
def Obligations.FlagRegister : Prop :=
  ∀ (i : Instr) (s t : State), exec i s = .next t →
    (DefinesFlag i → t.readV 0xF#4 = 0#8 ∨ t.readV 0xF#4 = 1#8) ∧
    (¬DefinesFlag i → ¬NamesVF i → t.readV 0xF#4 = s.readV 0xF#4)

/-- No instruction reads the sound timer or the dirty flag: two states that differ only in them go on alike, but for
FX18, which overwrites ST, and 00E0 and DXYN, which set the dirty flag (10_state.md sections 6 and 7). -/
def Obligations.OutputsUnread : Prop :=
  ∀ (i : Instr) (s : State) (v : Byte),
    exec i (s.setST v) =
      mapNext (fun t => if .ST ∈ writesOf i then t else t.setST v) (exec i s) ∧
    exec i s.clearDirtyFlag =
      mapNext (fun t => if .dirty ∈ writesOf i then t else t.clearDirtyFlag) (exec i s)

/-! ## Invariants -/

/-- Every completed step keeps the machine's invariant: memory in canonical form, at most 16 return addresses of at
most 0x1000, PC at most 0x10FE, and PC at the FX0A while a key is awaited (10_state.md sections 4, 5 and 8). -/
def Obligations.StepKeepsInv : Prop :=
  ∀ s t : State, Inv s → step s = .next t → Inv t

/-- Every move of the host keeps the machine's invariant, so after any program image has been loaded it holds
whatever the host does (10_state.md, 60_exceptions.md section 4, 70_reset_and_hazards.md section 1). -/
def Obligations.MovesKeepInv : Prop :=
  (∀ (m : Move) (s : State), Inv s → Inv (m.apply s).1) ∧
  (∀ (image : List Byte) (s : State) (ms : List Move), boot image = .next s → Inv (runMoves ms s))

/-! ## Control flow -/

/-- R110: 00EE pops the top of the stack into PC, or raises StackUnderflow on an empty stack. -/
def Obligations.ReturnPops : Prop :=
  decode 0x00EE = .ok .ret ∧ ∀ s : State,
    (s.stack = [] → exec .ret s = .fault .stackUnderflow) ∧
    (∀ (rest : List Word) (top : Word), s.stack = rest ++ [top] →
      ∃ t, exec .ret s = .next t ∧ t.PC = top ∧ t.stack = rest ∧ OnlyChanges [.PC, .stack] s t)

/-- 0NNN (but 00E0 and 00EE, which the spec's decision D6 puts first) and 1NNN set PC to NNN and nothing else
(41_control_flow.md section 1). -/
def Obligations.JumpsSetPC : Prop :=
  ∀ (nnn : Addr12) (s : State),
    (nnn ≠ 0x0E0#12 → nnn ≠ 0x0EE#12 → decode (0x0#4 ++ nnn) = .ok (.sys nnn)) ∧
    decode (0x1#4 ++ nnn) = .ok (.jp nnn) ∧
    (∃ t, exec (.sys nnn) s = .next t ∧ t.PC.toNat = nnn.toNat ∧ OnlyChanges [.PC] s t) ∧
    (∃ t, exec (.jp nnn) s = .next t ∧ t.PC.toNat = nnn.toNat ∧ OnlyChanges [.PC] s t)

/-- R113: 2NNN pushes PC + 2 and jumps, or raises StackOverflow when 16 entries are on the stack. -/
def Obligations.CallPushes : Prop :=
  ∀ (nnn : Addr12) (s : State),
    decode (0x2#4 ++ nnn) = .ok (.call nnn) ∧
    (s.stack.length < 16 → ∃ t, exec (.call nnn) s = .next t ∧ t.PC.toNat = nnn.toNat ∧
      t.stack = s.stack ++ [s.PC + 2] ∧ OnlyChanges [.PC, .stack] s t) ∧
    (s.stack.length = 16 → exec (.call nnn) s = .fault .stackOverflow)

/-- A call and the return that finds the call's stack come back to the instruction after the call, with the stack as
before it (41_control_flow.md section 1, 95_test_vectors.md S6). -/
def Obligations.CallThenReturn : Prop :=
  ∀ (nnn : Addr12) (s t u : State), exec (.call nnn) s = .next t → u.stack = t.stack →
    ∃ v, exec .ret u = .next v ∧ v.PC = s.PC + 2 ∧ v.stack = s.stack

/-- BNNN sets PC to NNN + V0, not masked, and nothing else: no mask is the spec's decision D32, no fault at the jump
its decision D3 (41_control_flow.md section 1). -/
def Obligations.JumpV0 : Prop :=
  ∀ (nnn : Addr12) (s : State),
    decode (0xB#4 ++ nnn) = .ok (.jpV0 nnn) ∧
    ∃ t, exec (.jpV0 nnn) s = .next t ∧ t.PC.toNat = nnn.toNat + (s.readV 0x0#4).toNat ∧ OnlyChanges [.PC] s t

/-- R115, R116: 3XKK skips exactly when Vx = KK, 4XKK exactly when Vx differs; only PC changes. -/
def Obligations.SkipImmediate : Prop :=
  ∀ (x : Nibble) (kk : Byte) (s : State),
    decode (0x3#4 ++ x ++ kk) = .ok (.seImm x kk) ∧ decode (0x4#4 ++ x ++ kk) = .ok (.sneImm x kk) ∧
    (∃ t, exec (.seImm x kk) s = .next t ∧ OnlyChanges [.PC] s t ∧
      (s.readV x = kk → t.PC = s.PC + 4) ∧ (s.readV x ≠ kk → t.PC = s.PC + 2)) ∧
    (∃ t, exec (.sneImm x kk) s = .next t ∧ OnlyChanges [.PC] s t ∧
      (s.readV x ≠ kk → t.PC = s.PC + 4) ∧ (s.readV x = kk → t.PC = s.PC + 2))

/-- 5XY0 skips exactly when Vx = Vy, 9XY0 exactly when they differ; only PC changes; 5XYn and 9XYn with another low
digit are no instruction, which is the spec's decision D5 (41_control_flow.md section 2). -/
def Obligations.SkipRegister : Prop :=
  ∀ (x y : Nibble) (s : State),
    decode (0x5#4 ++ x ++ y ++ 0x0#4) = .ok (.seReg x y) ∧ decode (0x9#4 ++ x ++ y ++ 0x0#4) = .ok (.sneReg x y) ∧
    (∀ n : Nibble, n ≠ 0x0#4 →
      decode (0x5#4 ++ x ++ y ++ n) = .error (.invalidOpcode (0x5#4 ++ x ++ y ++ n)) ∧
      decode (0x9#4 ++ x ++ y ++ n) = .error (.invalidOpcode (0x9#4 ++ x ++ y ++ n))) ∧
    (∃ t, exec (.seReg x y) s = .next t ∧ OnlyChanges [.PC] s t ∧
      (s.readV x = s.readV y → t.PC = s.PC + 4) ∧ (s.readV x ≠ s.readV y → t.PC = s.PC + 2)) ∧
    (∃ t, exec (.sneReg x y) s = .next t ∧ OnlyChanges [.PC] s t ∧
      (s.readV x ≠ s.readV y → t.PC = s.PC + 4) ∧ (s.readV x = s.readV y → t.PC = s.PC + 2))

/-- A jump to itself is an endless loop with no fault: every run of steps completes (41_control_flow.md section 1). -/
def Obligations.SelfJumpLoops : Prop :=
  ∀ (s : State) (nnn : Addr12), s.fault = none → s.PC.toNat = nnn.toNat → nnn.toNat + 1 ≤ 0xFFF →
    memRead s.mem s.PC.toNat ++ memRead s.mem (s.PC.toNat + 1) = 0x1#4 ++ nnn →
    step s = .next s ∧ ∀ n : Nat, SafeRun n s

/-! ## Arithmetic and logic -/

/-- R140: 6XKK loads KK into Vx; with X = F, VF is simply loaded. -/
def Obligations.LoadImmediate : Prop :=
  ∀ (x : Nibble) (kk : Byte) (s : State),
    decode (0x6#4 ++ x ++ kk) = .ok (.ldImm x kk) ∧
    ∃ t, exec (.ldImm x kk) s = .next t ∧ t.readV x = kk ∧ RegsKeptBut x s t ∧
      t.PC = s.PC + 2 ∧ OnlyChanges [.V, .PC] s t

/-- 7XKK adds KK to Vx modulo 256; VF is untouched unless X = F, and then holds the sum, which is the spec's decision
D31 (42_alu.md section 2). -/
def Obligations.AddImmediate : Prop :=
  ∀ (x : Nibble) (kk : Byte) (s : State),
    decode (0x7#4 ++ x ++ kk) = .ok (.addImm x kk) ∧
    ∃ t, exec (.addImm x kk) s = .next t ∧ (t.readV x).toNat = ((s.readV x).toNat + kk.toNat) % 256 ∧
      RegsKeptBut x s t ∧ t.PC = s.PC + 2 ∧ OnlyChanges [.V, .PC] s t

/-- R142: 8XY0 copies Vy to Vx. -/
def Obligations.CopyRegister : Prop :=
  ∀ (x y : Nibble) (s : State),
    decode (0x8#4 ++ x ++ y ++ 0x0#4) = .ok (.ldReg x y) ∧
    ∃ t, exec (.ldReg x y) s = .next t ∧ t.readV x = s.readV y ∧ RegsKeptBut x s t ∧
      t.PC = s.PC + 2 ∧ OnlyChanges [.V, .PC] s t

/-- 8XY1, 8XY2 and 8XY3 combine Vx and Vy bit by bit into Vx; that VF is not reset is the spec's decision D31
(42_alu.md section 3). -/
def Obligations.LogicBitwise : Prop :=
  ∀ (x y : Nibble) (s : State),
    decode (0x8#4 ++ x ++ y ++ 0x1#4) = .ok (.orReg x y) ∧
    decode (0x8#4 ++ x ++ y ++ 0x2#4) = .ok (.andReg x y) ∧
    decode (0x8#4 ++ x ++ y ++ 0x3#4) = .ok (.xorReg x y) ∧
    (∃ t, exec (.orReg x y) s = .next t ∧
      (∀ b : Nat, (t.readV x).getLsbD b = ((s.readV x).getLsbD b || (s.readV y).getLsbD b)) ∧
      RegsKeptBut x s t ∧ t.PC = s.PC + 2 ∧ OnlyChanges [.V, .PC] s t) ∧
    (∃ t, exec (.andReg x y) s = .next t ∧
      (∀ b : Nat, (t.readV x).getLsbD b = ((s.readV x).getLsbD b && (s.readV y).getLsbD b)) ∧
      RegsKeptBut x s t ∧ t.PC = s.PC + 2 ∧ OnlyChanges [.V, .PC] s t) ∧
    (∃ t, exec (.xorReg x y) s = .next t ∧
      (∀ b : Nat, (t.readV x).getLsbD b = ((s.readV x).getLsbD b ^^ (s.readV y).getLsbD b)) ∧
      RegsKeptBut x s t ∧ t.PC = s.PC + 2 ∧ OnlyChanges [.V, .PC] s t)

/-- 8XY4 puts the sum modulo 256 in Vx and the carry in VF; with X = F the carry is what VF holds, which is the spec's
decision D4 (42_alu.md section 4). -/
def Obligations.AddRegister : Prop :=
  ∀ (x y : Nibble) (s : State),
    decode (0x8#4 ++ x ++ y ++ 0x4#4) = .ok (.addReg x y) ∧
    ∃ t, exec (.addReg x y) s = .next t ∧
      ResultAndFlag x (((s.readV x).toNat + (s.readV y).toNat) % 256)
        (255 < (s.readV x).toNat + (s.readV y).toNat) s t ∧
      t.PC = s.PC + 2 ∧ OnlyChanges [.V, .PC] s t

/-- 8XY5 puts Vx - Vy modulo 256 in Vx and the no-borrow flag, equality included, in VF; with X = F VF holds the flag,
the spec's decision D4 (42_alu.md section 4). -/
def Obligations.SubRegister : Prop :=
  ∀ (x y : Nibble) (s : State),
    decode (0x8#4 ++ x ++ y ++ 0x5#4) = .ok (.subReg x y) ∧
    ∃ t, exec (.subReg x y) s = .next t ∧
      ResultAndFlag x (((s.readV x).toNat + 256 - (s.readV y).toNat) % 256)
        ((s.readV y).toNat ≤ (s.readV x).toNat) s t ∧
      t.PC = s.PC + 2 ∧ OnlyChanges [.V, .PC] s t

/-- 8XY6 puts Vy shifted right by one in Vx and Vy's bit 0 in VF; with X = F VF holds the flag, the spec's decision D4
(42_alu.md section 4). -/
def Obligations.ShiftRight : Prop :=
  ∀ (x y : Nibble) (s : State),
    decode (0x8#4 ++ x ++ y ++ 0x6#4) = .ok (.shrReg x y) ∧
    ∃ t, exec (.shrReg x y) s = .next t ∧
      ResultAndFlag x ((s.readV y).toNat / 2) ((s.readV y).toNat % 2 = 1) s t ∧
      t.PC = s.PC + 2 ∧ OnlyChanges [.V, .PC] s t

/-- 8XY7 puts Vy - Vx modulo 256 in Vx and the no-borrow flag, equality included, in VF; with X = F VF holds the flag,
the spec's decision D4 (42_alu.md section 4). -/
def Obligations.SubReverse : Prop :=
  ∀ (x y : Nibble) (s : State),
    decode (0x8#4 ++ x ++ y ++ 0x7#4) = .ok (.subnReg x y) ∧
    ∃ t, exec (.subnReg x y) s = .next t ∧
      ResultAndFlag x (((s.readV y).toNat + 256 - (s.readV x).toNat) % 256)
        ((s.readV x).toNat ≤ (s.readV y).toNat) s t ∧
      t.PC = s.PC + 2 ∧ OnlyChanges [.V, .PC] s t

/-- 8XYE puts Vy shifted left by one, modulo 256, in Vx and Vy's bit 7 in VF; with X = F VF holds the flag, the spec's
decision D4 (42_alu.md section 4). -/
def Obligations.ShiftLeft : Prop :=
  ∀ (x y : Nibble) (s : State),
    decode (0x8#4 ++ x ++ y ++ 0xE#4) = .ok (.shlReg x y) ∧
    ∃ t, exec (.shlReg x y) s = .next t ∧
      ResultAndFlag x ((s.readV y).toNat * 2 % 256) (128 ≤ (s.readV y).toNat) s t ∧
      t.PC = s.PC + 2 ∧ OnlyChanges [.V, .PC] s t

/-- CXKK puts the drawn byte masked by KK in Vx and takes a fresh draw each time; for every byte drawn the masked-out
bits are 0. The drawn byte is a free value of the model (log 1), the open parameter `RNG` of the spec's decision D18
(42_alu.md section 5). -/
def Obligations.RandomByte : Prop :=
  ∀ (x : Nibble) (kk : Byte) (s : State),
    decode (0xC#4 ++ x ++ kk) = .ok (.rnd x kk) ∧
    (∃ t, exec (.rnd x kk) s = .next t ∧ t.readV x = Config.rngByte s.draws &&& kk ∧ t.draws = s.draws + 1 ∧
      RegsKeptBut x s t ∧ t.PC = s.PC + 2 ∧ OnlyChanges [.V, .PC, .draws] s t) ∧
    (∀ r : Byte, ∃ t, rndWith r x kk s = .next t ∧
      ∀ b : Nat, (t.readV x).getLsbD b = (r.getLsbD b && kk.getLsbD b))

/-! ## The index register and memory -/

/-- R170: ANNN loads NNN into I. -/
def Obligations.LoadIndex : Prop :=
  ∀ (nnn : Addr12) (s : State),
    decode (0xA#4 ++ nnn) = .ok (.ldI nnn) ∧
    ∃ t, exec (.ldI nnn) s = .next t ∧ t.I.toNat = nnn.toNat ∧ t.PC = s.PC + 2 ∧ OnlyChanges [.I, .PC] s t

/-- FX1E adds Vx to I, saturating at 0xFFFF, and raises no fault; that VF is not written is the spec's decision D31
(43_index_memory.md section 2). -/
def Obligations.AddIndex : Prop :=
  ∀ (x : Nibble) (s : State),
    decode (0xF#4 ++ x ++ 0x1E#8) = .ok (.addI x) ∧
    ∃ t, exec (.addI x) s = .next t ∧ t.I.toNat = min (s.I.toNat + (s.readV x).toNat) 0xFFFF ∧
      t.PC = s.PC + 2 ∧ OnlyChanges [.I, .PC] s t

/-- FX29 sets I to 0x050 + 5·Vx, Vx not masked: the base follows conflict C2, no mask is the spec's decision D7
(43_index_memory.md section 2). -/
def Obligations.GlyphAddress : Prop :=
  ∀ (x : Nibble) (s : State),
    decode (0xF#4 ++ x ++ 0x29#8) = .ok (.ldF x) ∧
    ∃ t, exec (.ldF x) s = .next t ∧ t.I.toNat = 0x050 + 5 * (s.readV x).toNat ∧
      t.PC = s.PC + 2 ∧ OnlyChanges [.I, .PC] s t

/-- R173: FX33 stores the hundreds, tens and ones of Vx at I, I+1, I+2, or raises AddressOverflow when I + 2 is above
0xFFF. -/
def Obligations.StoreDigits : Prop :=
  ∀ (x : Nibble) (s : State),
    decode (0xF#4 ++ x ++ 0x33#8) = .ok (.ldB x) ∧
    (s.I.toNat + 2 ≤ 0xFFF → ∃ t, exec (.ldB x) s = .next t ∧
      (memRead t.mem s.I.toNat).toNat = (s.readV x).toNat / 100 ∧
      (memRead t.mem (s.I.toNat + 1)).toNat = (s.readV x).toNat / 10 % 10 ∧
      (memRead t.mem (s.I.toNat + 2)).toNat = (s.readV x).toNat % 10 ∧
      BytesKeptBut s.I.toNat 3 s t ∧ t.PC = s.PC + 2 ∧ OnlyChanges [.mem, .PC] s t) ∧
    (0xFFF < s.I.toNat + 2 → exec (.ldB x) s = .fault .addressOverflow)

/-- R174: FX55 stores V0..VX at I on and leaves I + X + 1 in I, or raises AddressOverflow when I + X is above 0xFFF. -/
def Obligations.StoreBlock : Prop :=
  ∀ (x : Nibble) (s : State),
    decode (0xF#4 ++ x ++ 0x55#8) = .ok (.ldMemVx x) ∧
    (s.I.toNat + x.toNat ≤ 0xFFF → ∃ t, exec (.ldMemVx x) s = .next t ∧
      (∀ k : Nibble, k.toNat ≤ x.toNat → memRead t.mem (s.I.toNat + k.toNat) = s.readV k) ∧
      BytesKeptBut s.I.toNat (x.toNat + 1) s t ∧ t.I.toNat = s.I.toNat + x.toNat + 1 ∧
      t.PC = s.PC + 2 ∧ OnlyChanges [.mem, .I, .PC] s t) ∧
    (0xFFF < s.I.toNat + x.toNat → exec (.ldMemVx x) s = .fault .addressOverflow)

/-- R175: FX65 loads V0..VX from memory at I on and leaves I + X + 1 in I, or raises AddressOverflow when I + X is
above 0xFFF. -/
def Obligations.LoadBlock : Prop :=
  ∀ (x : Nibble) (s : State),
    decode (0xF#4 ++ x ++ 0x65#8) = .ok (.ldVxMem x) ∧
    (s.I.toNat + x.toNat ≤ 0xFFF → ∃ t, exec (.ldVxMem x) s = .next t ∧
      (∀ j : Nibble, (j.toNat ≤ x.toNat → t.readV j = memRead s.mem (s.I.toNat + j.toNat)) ∧
        (x.toNat < j.toNat → t.readV j = s.readV j)) ∧
      t.I.toNat = s.I.toNat + x.toNat + 1 ∧ t.PC = s.PC + 2 ∧ OnlyChanges [.V, .I, .PC] s t) ∧
    (0xFFF < s.I.toNat + x.toNat → exec (.ldVxMem x) s = .fault .addressOverflow)

/-- What FX55 stores, FX65 loads back from the same I, whatever the registers have become in between
(43_index_memory.md section 3). -/
def Obligations.StoreThenLoad : Prop :=
  ∀ (x : Nibble) (s t u : State), exec (.ldMemVx x) s = .next t → u.mem = t.mem → u.I = s.I →
    ∃ v, exec (.ldVxMem x) u = .next v ∧
      ∀ j : Nibble, (j.toNat ≤ x.toNat → v.readV j = s.readV j) ∧ (x.toNat < j.toNat → v.readV j = u.readV j)

/-- Self-modifying code takes effect at the next fetch: a step at two bytes that FX55 has just stored runs the
instruction they make (20_memory.md section 5). -/
def Obligations.StoredCodeRuns : Prop :=
  ∀ (x k k' : Nibble) (s t u : State) (i : Instr), exec (.ldMemVx x) s = .next t →
    k'.toNat = k.toNat + 1 → k'.toNat ≤ x.toNat → u.mem = t.mem → u.fault = none →
    u.PC.toNat = s.I.toNat + k.toNat → decode (s.readV k ++ s.readV k') = .ok i → step u = exec i u

/-! ## The display -/

/-- R190: 00E0 clears every pixel and sets the dirty flag; VF is unchanged. -/
def Obligations.ClearScreen : Prop :=
  decode 0x00E0 = .ok .cls ∧ ∀ s : State,
    ∃ t, exec .cls s = .next t ∧ (∀ px py : Nat, px ≤ 63 → py ≤ 31 → pixel t.FB px py = false) ∧
      t.dirty = true ∧ t.PC = s.PC + 2 ∧ OnlyChanges [.FB, .dirty, .PC] s t

/-- DXYN XORs each sprite bit that falls on the grid into its pixel, leaves every other pixel, reports in VF whether a
set pixel was turned off, and sets the dirty flag; it raises AddressOverflow when a row, drawn or clipped, lies above
0xFFF. The bit order is the spec's decision D9, reading clipped rows D10, no wrap of the start D11 (44_display.md
section 2). -/
def Obligations.DrawSprite : Prop :=
  ∀ (x y n : Nibble) (s : State),
    decode (0xD#4 ++ x ++ y ++ n) = .ok (.drw x y n) ∧
    (n.toNat = 0 ∨ s.I.toNat + n.toNat - 1 ≤ 0xFFF → ∃ t, exec (.drw x y n) s = .next t ∧
      (∀ r c : Nat, OnScreen s x y n r c →
        pixel t.FB ((s.readV x).toNat + c) ((s.readV y).toNat + r) =
          (pixel s.FB ((s.readV x).toNat + c) ((s.readV y).toNat + r) ^^ rowBit s r c)) ∧
      (∀ px py : Nat, (¬∃ r c, OnScreen s x y n r c ∧ px = (s.readV x).toNat + c ∧ py = (s.readV y).toNat + r) →
        pixel t.FB px py = pixel s.FB px py) ∧
      ((∃ r c, OnScreen s x y n r c ∧
          pixel s.FB ((s.readV x).toNat + c) ((s.readV y).toNat + r) = true ∧ rowBit s r c = true) →
        t.readV 0xF#4 = 1#8) ∧
      ((¬∃ r c, OnScreen s x y n r c ∧
          pixel s.FB ((s.readV x).toNat + c) ((s.readV y).toNat + r) = true ∧ rowBit s r c = true) →
        t.readV 0xF#4 = 0#8) ∧
      RegsKeptBut 0xF#4 s t ∧ t.dirty = true ∧ t.PC = s.PC + 2 ∧ OnlyChanges [.FB, .dirty, .V, .PC] s t) ∧
    (0 < n.toNat ∧ 0xFFF < s.I.toNat + n.toNat - 1 → exec (.drw x y n) s = .fault .addressOverflow)

/-- R195: every DXYN that completes sets the dirty flag, whether or not a pixel changed; the `step()` of a DXYN that
faults does not. -/
def Obligations.DrawSetsDirty : Prop :=
  ∀ (x y n : Nibble) (s : State),
    (∀ t, exec (.drw x y n) s = .next t → t.dirty = true) ∧
    (∀ k, fetchInstr s = .ok (.drw x y n) → exec (.drw x y n) s = .fault k → (stepCall s).1.dirty = s.dirty)

/-- The same sprite drawn twice at the same place restores the framebuffer, and the second draw collides exactly when
some set bit of the sprite falls on a pixel that was clear before the first draw: the spec's own derivation, with
conflict C12 (44_display.md section 2). -/
def Obligations.DrawTwiceRestores : Prop :=
  ∀ (x y n : Nibble) (s t u v : State), exec (.drw x y n) s = .next t →
    u.FB = t.FB → u.I = s.I → u.mem = s.mem → u.readV x = s.readV x → u.readV y = s.readV y →
    exec (.drw x y n) u = .next v →
    v.FB = s.FB ∧
    (v.readV 0xF#4 = 1#8 ↔ ∃ r c, OnScreen s x y n r c ∧ rowBit s r c = true ∧
      pixel s.FB ((s.readV x).toNat + c) ((s.readV y).toNat + r) = false)

/-! ## Timers and tone -/

/-- R210, R211, R212: FX07 reads DT into Vx; FX15 and FX18 set DT and ST from Vx; no timer counts down in a step; after
FX18 the tone is on until `tick()` has run Vx times, so off at once for Vx = 0. -/
def Obligations.TimerInstructions : Prop :=
  ∀ (x : Nibble) (s : State),
    decode (0xF#4 ++ x ++ 0x07#8) = .ok (.ldVxDT x) ∧ decode (0xF#4 ++ x ++ 0x15#8) = .ok (.ldDTVx x) ∧
    decode (0xF#4 ++ x ++ 0x18#8) = .ok (.ldSTVx x) ∧
    (∃ t, exec (.ldVxDT x) s = .next t ∧ t.readV x = s.DT ∧ RegsKeptBut x s t ∧ t.PC = s.PC + 2 ∧
      OnlyChanges [.V, .PC] s t) ∧
    (∃ t, exec (.ldDTVx x) s = .next t ∧ t.DT = s.readV x ∧ t.PC = s.PC + 2 ∧ OnlyChanges [.DT, .PC] s t) ∧
    (∃ t, exec (.ldSTVx x) s = .next t ∧ t.ST = s.readV x ∧ t.PC = s.PC + 2 ∧ OnlyChanges [.ST, .PC] s t ∧
      (s.fault = none → ∀ n : Nat,
        (toneEnabled (runMoves (List.replicate n .tick) t) = true ↔ n < (s.readV x).toNat)))

/-- `tick()` takes one from each timer, never below 0, and changes nothing else; after n of them each timer is n
lower, floored at 0, and the tone is on exactly while ST is not 0 (45_timers.md section 2). -/
def Obligations.TimersCountDown : Prop :=
  ∀ (n : Nat) (s : State), s.fault = none →
    (∃ t, tick s = .next t ∧ t.DT.toNat = s.DT.toNat - 1 ∧ t.ST.toNat = s.ST.toNat - 1 ∧
      OnlyChanges [.DT, .ST] s t) ∧
    (runMoves (List.replicate n .tick) s).DT.toNat = s.DT.toNat - n ∧
    (runMoves (List.replicate n .tick) s).ST.toNat = s.ST.toNat - n ∧
    (toneEnabled (runMoves (List.replicate n .tick) s) = true ↔ n < s.ST.toNat)

/-! ## Input -/

/-- EX9E skips exactly when key Vx is pressed, EXA1 exactly when it is not; a value above 15 raises InvalidKey, the
spec's decision D14 (46_input.md section 2). -/
def Obligations.KeyTests : Prop :=
  ∀ (x : Nibble) (s : State),
    decode (0xE#4 ++ x ++ 0x9E#8) = .ok (.skp x) ∧ decode (0xE#4 ++ x ++ 0xA1#8) = .ok (.sknp x) ∧
    (∀ k : Fin 16, (s.readV x).toNat = k.val →
      (∃ t, exec (.skp x) s = .next t ∧ OnlyChanges [.PC] s t ∧
        (keyDown s k = true → t.PC = s.PC + 4) ∧ (keyDown s k = false → t.PC = s.PC + 2)) ∧
      (∃ t, exec (.sknp x) s = .next t ∧ OnlyChanges [.PC] s t ∧
        (keyDown s k = false → t.PC = s.PC + 4) ∧ (keyDown s k = true → t.PC = s.PC + 2))) ∧
    (15 < (s.readV x).toNat →
      exec (.skp x) s = .fault (.invalidKey (s.readV x)) ∧ exec (.sknp x) s = .fault (.invalidKey (s.readV x)))

/-- FX0A with a key pressed puts the lowest pressed index in Vx, ends the wait and steps; with no key pressed it
awaits one and only `wait` changes. It completes in every state. The lowest index is the spec's decision D15
(46_input.md section 3). -/
def Obligations.KeyWait : Prop :=
  ∀ (x : Nibble) (s : State),
    decode (0xF#4 ++ x ++ 0x0A#8) = .ok (.ldVxK x) ∧
    (∀ k : Fin 16, keyDown s k = true → (∀ j : Fin 16, j < k → keyDown s j = false) →
      ∃ t, exec (.ldVxK x) s = .next t ∧ (t.readV x).toNat = k.val ∧ RegsKeptBut x s t ∧ t.wait = .idle ∧
        t.PC = s.PC + 2 ∧ OnlyChanges [.V, .wait, .PC] s t) ∧
    ((∀ k : Fin 16, keyDown s k = false) →
      ∃ t, exec (.ldVxK x) s = .next t ∧ t.wait = .awaitingKey ∧ OnlyChanges [.wait] s t)

/-- While a key is awaited each `step()` is the FX0A again: with no key pressed it changes nothing, for ever; once the
host has pressed a key the next step ends the wait and moves PC on by 2. Executing the FX0A again is the spec's
decision D29 (40_cycle.md section 3, 46_input.md section 3). -/
def Obligations.WaitingStep : Prop :=
  ∀ s : State, Inv s → s.fault = none → s.wait = .awaitingKey →
    ((∀ k : Fin 16, keyDown s k = false) → step s = .next s ∧ ∀ n : Nat, SafeRun n s) ∧
    (∀ k : Fin 16, ∃ t, step (keySet k s) = .next t ∧ t.wait = .idle ∧ t.PC = s.PC + 2)

/-! ## The host's moves -/

/-- What each move of the host other than `step()` and `tick()` writes and returns; a key index above 15 is no move
(the spec's decision D25; the names of the reads are its decision D34) (46_input.md section 1, 60_exceptions.md
section 4). -/
def Obligations.HostMoves : Prop :=
  ∀ (s : State) (k : Fin 16),
    (keyDown ((Move.keySet k).apply s).1 k = true ∧ keyDown ((Move.keyClear k).apply s).1 k = false ∧
      (∀ j : Fin 16, j ≠ k → keyDown ((Move.keySet k).apply s).1 j = keyDown s j ∧
        keyDown ((Move.keyClear k).apply s).1 j = keyDown s j) ∧
      OnlyChanges [.key] s ((Move.keySet k).apply s).1 ∧ OnlyChanges [.key] s ((Move.keyClear k).apply s).1) ∧
    ((Move.clearDirty.apply s).1.dirty = false ∧ OnlyChanges [.dirty] s (Move.clearDirty.apply s).1) ∧
    Move.readFrame.apply s = (s, .frame s.FB s.dirty) ∧
    Move.readTone.apply s = (s, .tone (decide (0 < s.ST.toNat))) ∧
    Move.readTimers.apply s = (s, .timers s.DT s.ST)
end

