-- ==== Sys2Proof/Laws/Decode.lean ====
section
/-!
SUPPORT. The fields of a word put together from its digits, and a word put together from its fields (R71, R73).
-/
namespace Sys2Proof

/-! ## The bits of a word made of parts -/

theorem bit_address (a : Nibble) (b : Addr12) (i : Nat) :
    BitVec.getLsbD (w := 16) (a ++ b) i = if i < 12 then b.getLsbD i else a.getLsbD (i - 12) :=
  BitVec.getLsbD_append

theorem bit_bytes (a b : Byte) (i : Nat) :
    BitVec.getLsbD (w := 16) (a ++ b) i = if i < 8 then b.getLsbD i else a.getLsbD (i - 8) :=
  BitVec.getLsbD_append

theorem bit_immediate (a x : Nibble) (b : Byte) (i : Nat) :
    BitVec.getLsbD (w := 16) (a ++ x ++ b) i =
      if i < 8 then b.getLsbD i else if i < 12 then x.getLsbD (i - 8) else a.getLsbD (i - 12) := by
  refine BitVec.getLsbD_append.trans ?_
  rw [BitVec.getLsbD_append]
  split
  · rfl
  · simp only [show (i - 8 < 4) ↔ i < 12 by omega, show i - 8 - 4 = i - 12 by omega]

theorem bit_digits (a x y n : Nibble) (i : Nat) :
    BitVec.getLsbD (w := 16) (a ++ x ++ y ++ n) i =
      if i < 4 then n.getLsbD i else if i < 8 then y.getLsbD (i - 4)
      else if i < 12 then x.getLsbD (i - 8) else a.getLsbD (i - 12) := by
  refine BitVec.getLsbD_append.trans ?_
  rw [BitVec.getLsbD_append, BitVec.getLsbD_append]
  split
  · rfl
  · simp only [show (i - 4 < 4) ↔ i < 8 by omega, show i - 4 - 4 = i - 8 by omega,
      show (i - 8 < 4) ↔ i < 12 by omega, show i - 8 - 4 = i - 12 by omega]

/-! ## The fields of a word written digit by digit -/

section Fields

variable (a x y n : Nibble) (kk : Byte) (nnn : Addr12)

@[simp] theorem opField_digits : opField (a ++ x ++ y ++ n) = a := by
  apply BitVec.eq_of_getLsbD_eq
  intro i hi
  rw [opField, BitVec.getLsbD_extractLsb', bit_digits, if_neg (show ¬12 + i < 4 by omega), if_neg (show ¬12 + i < 8 by omega), if_neg (show ¬12 + i < 12 by omega), show 12 + i - 12 = i by omega]
  simp [hi]

@[simp] theorem xField_digits : xField (a ++ x ++ y ++ n) = x := by
  apply BitVec.eq_of_getLsbD_eq
  intro i hi
  rw [xField, BitVec.getLsbD_extractLsb', bit_digits, if_neg (show ¬8 + i < 4 by omega), if_neg (show ¬8 + i < 8 by omega), if_pos (show 8 + i < 12 by omega), show 8 + i - 8 = i by omega]
  simp [hi]

@[simp] theorem yField_digits : yField (a ++ x ++ y ++ n) = y := by
  apply BitVec.eq_of_getLsbD_eq
  intro i hi
  rw [yField, BitVec.getLsbD_extractLsb', bit_digits, if_neg (show ¬4 + i < 4 by omega), if_pos (show 4 + i < 8 by omega), show 4 + i - 4 = i by omega]
  simp [hi]

@[simp] theorem nField_digits : nField (a ++ x ++ y ++ n) = n := by
  apply BitVec.eq_of_getLsbD_eq
  intro i hi
  rw [nField, BitVec.getLsbD_extractLsb', bit_digits, Nat.zero_add, if_pos (show i < 4 by omega)]
  simp [hi]

@[simp] theorem opField_immediate : opField (a ++ x ++ kk) = a := by
  apply BitVec.eq_of_getLsbD_eq
  intro i hi
  rw [opField, BitVec.getLsbD_extractLsb', bit_immediate, if_neg (show ¬12 + i < 8 by omega), if_neg (show ¬12 + i < 12 by omega), show 12 + i - 12 = i by omega]
  simp [hi]

@[simp] theorem xField_immediate : xField (a ++ x ++ kk) = x := by
  apply BitVec.eq_of_getLsbD_eq
  intro i hi
  rw [xField, BitVec.getLsbD_extractLsb', bit_immediate, if_neg (show ¬8 + i < 8 by omega), if_pos (show 8 + i < 12 by omega), show 8 + i - 8 = i by omega]
  simp [hi]

@[simp] theorem byteField_immediate : byteField (a ++ x ++ kk) = kk := by
  apply BitVec.eq_of_getLsbD_eq
  intro i hi
  rw [byteField, BitVec.getLsbD_extractLsb', bit_immediate, Nat.zero_add, if_pos (show i < 8 by omega)]
  simp [hi]

@[simp] theorem opField_address : opField (a ++ nnn) = a := by
  apply BitVec.eq_of_getLsbD_eq
  intro i hi
  rw [opField, BitVec.getLsbD_extractLsb', bit_address, if_neg (show ¬12 + i < 12 by omega), show 12 + i - 12 = i by omega]
  simp [hi]

@[simp] theorem addrField_address : addrField (a ++ nnn) = nnn := by
  apply BitVec.eq_of_getLsbD_eq
  intro i hi
  rw [addrField, BitVec.getLsbD_extractLsb', bit_address, Nat.zero_add, if_pos (show i < 12 by omega)]
  simp [hi]

end Fields

/-! ## A word from its fields -/

theorem word_of_address (w : Word) : opField w ++ addrField w = w := by
  apply BitVec.eq_of_getLsbD_eq
  intro i hi
  rw [bit_address]
  split
  · simp [addrField, *]
  · simp [opField, show i - 12 < 4 by omega, show 12 + (i - 12) = i by omega]

theorem word_of_immediate (w : Word) : opField w ++ xField w ++ byteField w = w := by
  apply BitVec.eq_of_getLsbD_eq
  intro i hi
  rw [bit_immediate]
  split
  · simp [byteField, *]
  · split
    · simp [xField, show i - 8 < 4 by omega, show 8 + (i - 8) = i by omega]
    · simp [opField, show i - 12 < 4 by omega, show 12 + (i - 12) = i by omega]

theorem word_of_digits (w : Word) : opField w ++ xField w ++ yField w ++ nField w = w := by
  apply BitVec.eq_of_getLsbD_eq
  intro i hi
  rw [bit_digits]
  split
  · simp [nField, *]
  · split
    · simp [yField, show i - 4 < 4 by omega, show 4 + (i - 4) = i by omega]
    · split
      · simp [xField, show i - 8 < 4 by omega, show 8 + (i - 8) = i by omega]
      · simp [opField, show i - 12 < 4 by omega, show 12 + (i - 12) = i by omega]

/-! ## The masks of the opcode map -/

theorem mask_major (w : Word) : w &&& 0xF000#16 = opField w ++ 0#12 := by
  apply BitVec.eq_of_getLsbD_eq
  intro i hi
  rw [bit_address]
  interval_cases i <;> simp [opField]

theorem mask_low_nibble (w : Word) : w &&& 0xF00F#16 = opField w ++ 0#4 ++ 0#4 ++ nField w := by
  apply BitVec.eq_of_getLsbD_eq
  intro i hi
  rw [bit_digits]
  interval_cases i <;> simp [opField, nField]

theorem mask_low_byte (w : Word) : w &&& 0xF0FF#16 = opField w ++ 0#4 ++ byteField w := by
  apply BitVec.eq_of_getLsbD_eq
  intro i hi
  rw [bit_immediate]
  interval_cases i <;> simp [opField, byteField]

theorem mask_all (w : Word) : w &&& 0xFFFF#16 = w := by
  apply BitVec.eq_of_getLsbD_eq
  intro i hi
  interval_cases i <;> simp

/-! ## Bytes and words -/

@[simp] theorem wordOfBytes_bytes (w : Word) : wordOfBytes (highByte w) (lowByte w) = w := by
  apply BitVec.eq_of_getLsbD_eq
  intro i hi
  rw [wordOfBytes, bit_bytes]
  split
  · simp [lowByte, *]
  · simp [highByte, show i - 8 < 8 by omega, show 8 + (i - 8) = i by omega]

@[simp] theorem highByte_wordOfBytes (hi lo : Byte) : highByte (wordOfBytes hi lo) = hi := by
  apply BitVec.eq_of_getLsbD_eq
  intro i h
  rw [highByte, BitVec.getLsbD_extractLsb', wordOfBytes, bit_bytes, if_neg (show ¬8 + i < 8 by omega)]
  simp [h]

@[simp] theorem lowByte_wordOfBytes (hi lo : Byte) : lowByte (wordOfBytes hi lo) = lo := by
  apply BitVec.eq_of_getLsbD_eq
  intro i h
  rw [lowByte, BitVec.getLsbD_extractLsb', wordOfBytes, bit_bytes, Nat.zero_add, if_pos h]
  simp [h]

end Sys2Proof
end

