-- ==== Sys2Proof/Laws/Display.lean ====
section
/-!
SUPPORT. The sprite drawer, pixel by pixel: what each of its loops makes of every pixel and of the collision flag.
-/
namespace Sys2Proof.Machine

theorem pixel_outside (f : Frame) {x y : Nat} (h : ¬(x < 64 ∧ y < 32)) : pixel f x y = false := by
  simp [pixel, h]

@[simp] theorem pixel_blankFrame (x y : Nat) : pixel blankFrame x y = false := by
  by_cases h : x < 64 ∧ y < 32 <;> simp [pixel, blankFrame, h]

/-- A framebuffer is its pixels. -/
theorem frame_ext {f g : Frame} (h : ∀ x y : Nat, pixel f x y = pixel g x y) : f = g := by
  apply Vector.ext
  intro x hx
  apply Vector.ext
  intro y hy
  simpa [pixel, hx, hy] using h x y

@[simp] theorem pixel_setPixel (f : Frame) (x y px py : Nat) (b : Bool) :
    pixel (setPixel f x y b) px py = if px = x ∧ py = y ∧ x < 64 ∧ y < 32 then b else pixel f px py := by
  by_cases h : x < 64 ∧ y < 32
  · by_cases hp : px < 64 ∧ py < 32
    · by_cases hx : px = x <;> by_cases hy : py = y <;>
        simp_all [setPixel, pixel, eq_comm]
    · rw [pixel_outside _ hp, pixel_outside _ hp, if_neg (by omega)]
  · rw [setPixel, dif_neg h, if_neg (by omega)]

/-- One target pixel (R191, R193): inside the grid it is XORed with the bit, every other pixel is as before. -/
theorem pixel_drawPixel (px py qx qy : Nat) (bit : Bool) (d : Canvas) :
    pixel (drawPixel px py bit d).1 qx qy =
      (pixel d.1 qx qy ^^ (decide (qx = px ∧ qy = py ∧ px ≤ 63 ∧ py ≤ 31) && bit)) := by
  by_cases h : px ≤ 63 ∧ py ≤ 31
  · rw [drawPixel, if_pos h, pixel_setPixel]
    by_cases hq : qx = px ∧ qy = py
    · rw [if_pos ⟨hq.1, hq.2, by omega, by omega⟩, decide_eq_true ⟨hq.1, hq.2, h⟩, hq.1, hq.2]
      simp
    · rw [if_neg (fun e => hq ⟨e.1, e.2.1⟩), decide_eq_false (fun e => hq ⟨e.1, e.2.1⟩)]
      simp
  · rw [drawPixel, if_neg h, decide_eq_false (fun e => h e.2.2)]
    simp

/-- The collision flag after one target pixel (R194). -/
theorem collision_drawPixel (px py : Nat) (bit : Bool) (d : Canvas) :
    (drawPixel px py bit d).2 = (d.2 || (decide (px ≤ 63 ∧ py ≤ 31) && (pixel d.1 px py && bit))) := by
  by_cases h : px ≤ 63 ∧ py ≤ 31
  · rw [drawPixel, if_pos h, decide_eq_true h]; simp
  · rw [drawPixel, if_neg h, decide_eq_false h]; simp

/-- The columns of a row: each pixel of the row's span is XORed with its sprite bit. -/
theorem pixel_drawColumns (x0 py : Nat) (row : Byte) (c k qx qy : Nat) (d : Canvas) :
    pixel (drawColumns x0 py row c k d).1 qx qy =
      (pixel d.1 qx qy ^^
        (decide (x0 + c ≤ qx ∧ qx < x0 + c + k ∧ qy = py ∧ qx ≤ 63 ∧ qy ≤ 31) && spriteBit row (qx - x0))) := by
  induction k generalizing c d with
  | zero =>
    rw [drawColumns, decide_eq_false (by omega)]; simp
  | succ k ih =>
    rw [drawColumns, ih, pixel_drawPixel]
    by_cases h : qx = x0 + c ∧ qy = py ∧ x0 + c ≤ 63 ∧ py ≤ 31
    · rw [decide_eq_true h, decide_eq_false (by omega), decide_eq_true (by omega)]
      have : qx - x0 = c := by omega
      simp [this]
    · rw [decide_eq_false h]
      by_cases h' : x0 + (c + 1) ≤ qx ∧ qx < x0 + (c + 1) + k ∧ qy = py ∧ qx ≤ 63 ∧ qy ≤ 31
      · rw [decide_eq_true h', decide_eq_true (by omega)]; simp
      · rw [decide_eq_false h', decide_eq_false (by omega)]; simp

/-- The collision flag after the columns of a row: some drawn pixel was set and met a set bit (R194). -/
theorem collision_drawColumns (x0 py : Nat) (row : Byte) (c k : Nat) (d : Canvas) :
    (drawColumns x0 py row c k d).2 = true ↔
      d.2 = true ∨ ∃ j, c ≤ j ∧ j < c + k ∧ x0 + j ≤ 63 ∧ py ≤ 31 ∧ pixel d.1 (x0 + j) py = true ∧
        spriteBit row j = true := by
  induction k generalizing c d with
  | zero =>
    simp only [drawColumns]
    constructor
    · exact .inl
    · rintro (h | ⟨j, h⟩)
      · exact h
      · omega
  | succ k ih =>
    rw [drawColumns, ih, collision_drawPixel]
    have old : ∀ j, c + 1 ≤ j → pixel (drawPixel (x0 + c) py (spriteBit row c) d).1 (x0 + j) py =
        pixel d.1 (x0 + j) py := by
      intro j hj
      rw [pixel_drawPixel, decide_eq_false (by omega)]; simp
    constructor
    · rintro (h | ⟨j, h1, h2, h3, h4, h5, h6⟩)
      · simp only [Bool.or_eq_true, Bool.and_eq_true, decide_eq_true_eq] at h
        rcases h with h | ⟨⟨h1, h2⟩, h3, h4⟩
        · exact .inl h
        · exact .inr ⟨c, le_refl _, by omega, h1, h2, h3, h4⟩
      · exact .inr ⟨j, by omega, by omega, h3, h4, (old j h1) ▸ h5, h6⟩
    · rintro (h | ⟨j, h1, h2, h3, h4, h5, h6⟩)
      · exact .inl (by simp [h])
      · by_cases hj : j = c
        · subst hj
          exact .inl (by simp [h3, h4, h5, h6])
        · exact .inr ⟨j, by omega, by omega, h3, h4, (old j (by omega)).trans h5, h6⟩

@[simp] theorem spriteBit_zero (c : Nat) : spriteBit 0#8 c = false := by simp [spriteBit]

/-- The sprite of no rows brings no bit. -/
@[simp] theorem spriteAt_nil (x0 y0 px py : Nat) : spriteAt [] x0 y0 px py = false := by simp [spriteAt]

theorem spriteAt_cons (row : Byte) (rows : List Byte) (x0 y0 px py : Nat) :
    spriteAt (row :: rows) x0 y0 px py =
      ((decide (x0 ≤ px ∧ px < x0 + 8 ∧ py = y0 ∧ px ≤ 63 ∧ py ≤ 31) && spriteBit row (px - x0)) ^^
        spriteAt rows x0 (y0 + 1) px py) := by
  unfold spriteAt
  by_cases h0 : py = y0
  · subst h0
    rw [decide_eq_false (p := x0 ≤ px ∧ px < x0 + 8 ∧ py + 1 ≤ py ∧ px ≤ 63 ∧ py ≤ 31) (by omega)]
    simp
  · rw [decide_eq_false (p := x0 ≤ px ∧ px < x0 + 8 ∧ py = y0 ∧ px ≤ 63 ∧ py ≤ 31) (by omega)]
    by_cases h : x0 ≤ px ∧ px < x0 + 8 ∧ y0 ≤ py ∧ px ≤ 63 ∧ py ≤ 31
    · have e : py - y0 = (py - (y0 + 1)) + 1 := by omega
      rw [decide_eq_true h, decide_eq_true (by omega), e]
      simp
    · rw [decide_eq_false h, decide_eq_false (by omega)]
      simp

/-- The whole sprite: every pixel is XORed with the sprite bit that falls on it (R191). -/
theorem pixel_drawRows (x0 y0 qx qy : Nat) (rows : List Byte) (d : Canvas) :
    pixel (drawRows x0 y0 rows d).1 qx qy = (pixel d.1 qx qy ^^ spriteAt rows x0 y0 qx qy) := by
  induction rows generalizing y0 d with
  | nil => simp [drawRows]
  | cons row rows ih => rw [drawRows, ih, pixel_drawColumns, spriteAt_cons]; simp

/-- Collision of the whole sprite (R194): some pixel that was set meets a set sprite bit. -/
theorem collision_drawRows (x0 y0 : Nat) (rows : List Byte) (d : Canvas) :
    (drawRows x0 y0 rows d).2 = true ↔
      d.2 = true ∨ ∃ qx qy, pixel d.1 qx qy = true ∧ spriteAt rows x0 y0 qx qy = true := by
  induction rows generalizing y0 d with
  | nil => simp [drawRows]
  | cons row rows ih =>
    rw [drawRows, ih, collision_drawColumns]
    have old : ∀ qx qy, spriteAt rows x0 (y0 + 1) qx qy = true →
        pixel (drawColumns x0 y0 row 0 8 d).1 qx qy = pixel d.1 qx qy := by
      intro qx qy h
      have : y0 + 1 ≤ qy := by
        simp only [spriteAt, Bool.and_eq_true, decide_eq_true_eq] at h
        exact h.1.2.2.1
      rw [pixel_drawColumns, decide_eq_false (by omega)]; simp
    constructor
    · rintro ((h | ⟨j, -, h2, h3, h4, h5, h6⟩) | ⟨qx, qy, h1, h2⟩)
      · exact .inl h
      · refine .inr ⟨x0 + j, y0, h5, ?_⟩
        rw [spriteAt_cons, decide_eq_true (by omega)]
        have : spriteAt rows x0 (y0 + 1) (x0 + j) y0 = false := by
          rw [spriteAt, decide_eq_false (by omega)]; rfl
        simp [this, h6]
      · refine .inr ⟨qx, qy, (old qx qy h2) ▸ h1, ?_⟩
        have : y0 + 1 ≤ qy := by
          simp only [spriteAt, Bool.and_eq_true, decide_eq_true_eq] at h2
          exact h2.1.2.2.1
        rw [spriteAt_cons, decide_eq_false (by omega)]
        simpa using h2
    · rintro (h | ⟨qx, qy, h1, h2⟩)
      · exact .inl (.inl h)
      · by_cases hy : qy = y0
        · subst hy
          have e : spriteAt rows x0 (qy + 1) qx qy = false := by
            rw [spriteAt, decide_eq_false (by omega)]; rfl
          rw [spriteAt_cons, e] at h2
          simp only [Bool.xor_false, Bool.and_eq_true, decide_eq_true_eq] at h2
          obtain ⟨⟨h3, h4, -, h5, h6⟩, h7⟩ := h2
          have e : x0 + (qx - x0) = qx := by omega
          exact .inl (.inr ⟨qx - x0, by omega, by omega, by omega, h6, by rw [e]; exact h1, h7⟩)
        · rw [spriteAt_cons, decide_eq_false (by omega)] at h2
          simp only [Bool.false_and, Bool.false_xor] at h2
          exact .inr ⟨qx, qy, (old qx qy h2).trans h1, h2⟩

/-- What drawing a sprite does to every pixel. -/
theorem pixel_drawSprite (f : Frame) (x0 y0 qx qy : Nat) (rows : List Byte) :
    pixel (drawSprite f x0 y0 rows).1 qx qy = (pixel f qx qy ^^ spriteAt rows x0 y0 qx qy) :=
  pixel_drawRows x0 y0 qx qy rows (f, false)

/-- When drawing a sprite collides. -/
theorem collision_drawSprite (f : Frame) (x0 y0 : Nat) (rows : List Byte) :
    (drawSprite f x0 y0 rows).2 = true ↔
      ∃ qx qy, pixel f qx qy = true ∧ spriteAt rows x0 y0 qx qy = true := by
  rw [drawSprite, collision_drawRows]; simp

end Sys2Proof.Machine
end

