-- ==== Sys2Proof/Laws/Memory.lean ====
section
/-!
SUPPORT. The laws of the memory list: what a read gives after each operation, and that each keeps the canonical form.
-/
namespace Sys2Proof.Machine

/-! ## What an address reads as -/

@[simp] theorem memRead_nil (a : Nat) : memRead [] a = unlistedByte a := rfl

theorem memRead_memErase (m : Memory) (a b : Nat) :
    memRead (memErase m a) b = if b = a then unlistedByte a else memRead m b := by
  induction m with
  | nil => by_cases h : b = a <;> simp [memErase, h]
  | cons c m ih =>
    have e : memErase (c :: m) a = if c.1 = a then memErase m a else c :: memErase m a := by
      by_cases hc : c.1 = a <;> simp [memErase, hc]
    rw [e]
    by_cases hc : c.1 = a
    · rw [if_pos hc, ih, memRead, hc]
      by_cases hb : b = a <;> simp [hb]
    · rw [if_neg hc, memRead, memRead, ih]
      by_cases hb : b = a
      · rw [if_neg (fun h => hc (h.symm.trans hb)), if_pos hb, if_pos hb]
      · rw [if_neg hb, if_neg hb]

theorem memRead_memInsert (m : Memory) (a b : Nat) (v : Byte) (hm : ∀ c ∈ m, c.1 ≠ a) :
    memRead (memInsert a v m) b = if b = a then v else memRead m b := by
  induction m with
  | nil => simp [memInsert, memRead]
  | cons c m ih =>
    have hc : c.1 ≠ a := hm c (by simp)
    by_cases hlt : a < c.1
    · simp [memInsert, hlt, memRead]
    · have := ih (fun d hd => hm d (by simp [hd]))
      simp only [memInsert, if_neg hlt, memRead, this]
      by_cases hb : b = a
      · rw [if_neg (fun h => hc (h.symm.trans hb)), if_pos hb, if_pos hb]
      · rw [if_neg hb, if_neg hb]

theorem ne_of_mem_memErase {m : Memory} {a : Nat} : ∀ c ∈ memErase m a, c.1 ≠ a := by
  simp [memErase]

/-- A read after a write: the byte written at its address, every other place as before; above 0xFFF there is no byte
to change (R50, R57). -/
@[simp] theorem memRead_memWrite (m : Memory) (a b : Nat) (v : Byte) :
    memRead (memWrite m a v) b = if b = a ∧ a < Config.memSize then v else memRead m b := by
  unfold memWrite
  by_cases ha : a < Config.memSize
  · rw [if_pos ha]
    by_cases hv : v = unlistedByte a
    · rw [if_pos hv, memRead_memErase]
      simp [ha, hv]
    · rw [if_neg hv, memRead_memInsert _ _ _ _ ne_of_mem_memErase, memRead_memErase]
      by_cases hb : b = a <;> simp [hb, ha]
  · rw [if_neg ha]
    simp [ha]

/-- A read after a block write. -/
theorem memRead_memWriteBytes (m : Memory) (a b : Nat) (vs : List Byte) :
    memRead (memWriteBytes m a vs) b =
      if h : a ≤ b ∧ b < a + vs.length ∧ b < Config.memSize then vs[b - a]'(by omega) else memRead m b := by
  induction vs generalizing m a with
  | nil => simp only [memWriteBytes, List.length_nil]; rw [dif_neg (by omega)]
  | cons v vs ih =>
    rw [memWriteBytes, ih, memRead_memWrite]
    by_cases h1 : a + 1 ≤ b ∧ b < a + 1 + vs.length ∧ b < Config.memSize
    · have e : b - a = (b - (a + 1)) + 1 := by omega
      rw [dif_pos h1, dif_pos ⟨by omega, by simp only [List.length_cons]; omega, h1.2.2⟩]
      simp only [e, List.getElem_cons_succ]
    · rw [dif_neg h1]
      by_cases h2 : b = a ∧ a < Config.memSize
      · rw [if_pos h2, dif_pos ⟨by omega, by simp only [List.length_cons]; omega, by omega⟩]
        simp [h2.1]
      · rw [if_neg h2, dif_neg (by simp only [List.length_cons]; omega)]

/-- A block write leaves every byte outside the block as it was. -/
theorem memRead_memWriteBytes_outside (m : Memory) (a b : Nat) (vs : List Byte)
    (h : b < a ∨ a + vs.length ≤ b) : memRead (memWriteBytes m a vs) b = memRead m b := by
  rw [memRead_memWriteBytes, dif_neg (by omega)]

/-- A block write that lies inside memory puts its bytes at consecutive addresses (R56). -/
theorem memRead_memWriteBytes_inside (m : Memory) (a k : Nat) (vs : List Byte) (hk : k < vs.length)
    (h : a + vs.length ≤ Config.memSize) : memRead (memWriteBytes m a vs) (a + k) = vs[k] := by
  rw [memRead_memWriteBytes, dif_pos ⟨by omega, by omega, by omega⟩]
  simp

@[simp] theorem memReadBytes_length (m : Memory) (a n : Nat) : (memReadBytes m a n).length = n := by
  induction n generalizing a with
  | zero => rfl
  | succ n ih => simp [memReadBytes, ih]

@[simp] theorem memReadBytes_getElem (m : Memory) (a n k : Nat) (h : k < (memReadBytes m a n).length) :
    (memReadBytes m a n)[k] = memRead m (a + k) := by
  induction n generalizing a k with
  | zero => simp [memReadBytes] at h
  | succ n ih =>
    cases k with
    | zero => simp [memReadBytes]
    | succ k =>
      simp only [memReadBytes, List.getElem_cons_succ]
      rw [ih]
      congr 1; omega

/-! ## Spans -/

theorem spanOk_iff (a n : Nat) : spanOk a n = true ↔ n = 0 ∨ a + n ≤ Config.memSize := by
  simp [spanOk]

/-! ## The canonical form -/

theorem wf_nil : Memory.wf [] := by simp [Memory.wf]

theorem wf_memErase {m : Memory} (h : Memory.wf m) (a : Nat) : Memory.wf (memErase m a) :=
  ⟨h.1.filter _, fun c hc => h.2 c (List.mem_of_mem_filter hc)⟩

theorem mem_memInsert {m : Memory} {a : Nat} {v : Byte} {c : Host.Cell} :
    c ∈ memInsert a v m ↔ c = (a, v) ∨ c ∈ m := by
  induction m with
  | nil => simp [memInsert]
  | cons d m ih => by_cases h : a < d.1 <;> simp [memInsert, h, ih, or_left_comm]

theorem wf_memInsert {m : Memory} {a : Nat} {v : Byte} (h : Memory.wf m) (hm : ∀ c ∈ m, c.1 ≠ a)
    (ha : a < Config.memSize) (hv : v ≠ unlistedByte a) : Memory.wf (memInsert a v m) := by
  refine ⟨?_, fun c hc => ?_⟩
  · obtain ⟨hs, -⟩ := h
    induction m with
    | nil => simp [memInsert]
    | cons d m ih =>
      rw [List.pairwise_cons] at hs
      have hd : d.1 ≠ a := hm d (by simp)
      by_cases hlt : a < d.1
      · simp only [memInsert, hlt, if_true, List.pairwise_cons]
        refine ⟨fun c hc => ?_, hs⟩
        rcases List.mem_cons.1 hc with rfl | hc
        · exact hlt
        · exact hlt.trans (hs.1 c hc)
      · simp only [memInsert, hlt, if_false, List.pairwise_cons]
        refine ⟨fun c hc => ?_, ih (fun c hc => hm c (by simp [hc])) hs.2⟩
        rcases mem_memInsert.1 hc with rfl | hc
        · exact lt_of_le_of_ne (Nat.not_lt.1 hlt) hd
        · exact hs.1 c hc
  · rcases mem_memInsert.1 hc with rfl | hc
    · exact ⟨ha, hv⟩
    · exact h.2 c hc

/-- A write keeps the canonical form. -/
theorem wf_memWrite {m : Memory} (h : Memory.wf m) (a : Nat) (v : Byte) : Memory.wf (memWrite m a v) := by
  by_cases ha : a < Config.memSize <;> by_cases hv : v = unlistedByte a
  · simpa [memWrite, ha, hv] using wf_memErase h a
  · simpa [memWrite, ha, hv] using wf_memInsert (wf_memErase h a) ne_of_mem_memErase ha hv
  · simpa [memWrite, ha] using h
  · simpa [memWrite, ha] using h

/-- A block write keeps the canonical form. -/
theorem wf_memWriteBytes {m : Memory} (h : Memory.wf m) (a : Nat) (vs : List Byte) :
    Memory.wf (memWriteBytes m a vs) := by
  induction vs generalizing m a with
  | nil => exact h
  | cons v vs ih => exact ih (wf_memWrite h a v) (a + 1)

/-- Memory right after reset is in canonical form: nothing is listed. -/
theorem wf_reset : Memory.wf State.reset.mem := wf_nil

/-- A listed cell is what its address reads as. -/
theorem memRead_of_mem {m : Memory} (h : Memory.wf m) {c : Host.Cell} (hc : c ∈ m) : memRead m c.1 = c.2 := by
  obtain ⟨hs, -⟩ := h
  induction m with
  | nil => simp at hc
  | cons d m ih =>
    rw [List.pairwise_cons] at hs
    rcases List.mem_cons.1 hc with rfl | hc
    · simp [memRead]
    · have : c.1 ≠ d.1 := (hs.1 c hc).ne'
      simp [memRead, this, ih hc hs.2]

/-! ## The register block -/

@[simp] theorem regBlock_length (s : State) (x : Nibble) : (regBlock s x).length = blockLen x := by
  have := x.isLt
  simp only [regBlock, List.length_take, Vector.length_toList, blockLen]
  omega

@[simp] theorem regBlock_getElem (s : State) (x : Nibble) (k : Nat) (h : k < (regBlock s x).length) :
    (regBlock s x)[k] = s.readV (BitVec.ofNat 4 k) := by
  have hx := x.isLt
  have hk : k < 16 := by rw [regBlock_length, blockLen] at h; omega
  have e : k % 16 = k := Nat.mod_eq_of_lt hk
  simp [regBlock, State.readV, e]

@[simp] theorem loadBlock_getElem (s : State) (x j : Nibble) :
    (loadBlock s x)[j.toNat]'j.isLt =
      if j.toNat ≤ x.toNat then memRead s.mem (memOperand s j.toNat) else s.readV j := by
  simp [loadBlock, State.readV]

end Sys2Proof.Machine
end

