-- ==== Sys2Proof/Laws/State.lean ====
section
/-!
SUPPORT. One lemma per field per update of the state, each true by unfolding: later proofs never unfold an update.
-/
namespace Sys2Proof.Machine

@[simp] theorem State.raise_V (s : State) (k : Fault) : (s.raise k).V = s.V := rfl
@[simp] theorem State.raise_I (s : State) (k : Fault) : (s.raise k).I = s.I := rfl
@[simp] theorem State.raise_PC (s : State) (k : Fault) : (s.raise k).PC = s.PC := rfl
@[simp] theorem State.raise_stack (s : State) (k : Fault) : (s.raise k).stack = s.stack := rfl
@[simp] theorem State.raise_DT (s : State) (k : Fault) : (s.raise k).DT = s.DT := rfl
@[simp] theorem State.raise_ST (s : State) (k : Fault) : (s.raise k).ST = s.ST := rfl
@[simp] theorem State.raise_mem (s : State) (k : Fault) : (s.raise k).mem = s.mem := rfl
@[simp] theorem State.raise_FB (s : State) (k : Fault) : (s.raise k).FB = s.FB := rfl
@[simp] theorem State.raise_dirty (s : State) (k : Fault) : (s.raise k).dirty = s.dirty := rfl
@[simp] theorem State.raise_key (s : State) (k : Fault) : (s.raise k).key = s.key := rfl
@[simp] theorem State.raise_wait (s : State) (k : Fault) : (s.raise k).wait = s.wait := rfl
@[simp] theorem State.raise_fault (s : State) (k : Fault) : (s.raise k).fault = some k := rfl
@[simp] theorem State.raise_draws (s : State) (k : Fault) : (s.raise k).draws = s.draws := rfl
@[simp] theorem State.raise_readV (s : State) (k : Fault) (j : Nibble) : (s.raise k).readV j = s.readV j := rfl
@[simp] theorem State.raise_keyDown (s : State) (k : Fault) (j : Fin 16) : keyDown (s.raise k) j = keyDown s j := rfl

@[simp] theorem State.setV_V (s : State) (x : Nibble) (v : Byte) : (s.setV x v).V = s.V.set x.toNat v x.isLt := rfl
@[simp] theorem State.setV_I (s : State) (x : Nibble) (v : Byte) : (s.setV x v).I = s.I := rfl
@[simp] theorem State.setV_PC (s : State) (x : Nibble) (v : Byte) : (s.setV x v).PC = s.PC := rfl
@[simp] theorem State.setV_stack (s : State) (x : Nibble) (v : Byte) : (s.setV x v).stack = s.stack := rfl
@[simp] theorem State.setV_DT (s : State) (x : Nibble) (v : Byte) : (s.setV x v).DT = s.DT := rfl
@[simp] theorem State.setV_ST (s : State) (x : Nibble) (v : Byte) : (s.setV x v).ST = s.ST := rfl
@[simp] theorem State.setV_mem (s : State) (x : Nibble) (v : Byte) : (s.setV x v).mem = s.mem := rfl
@[simp] theorem State.setV_FB (s : State) (x : Nibble) (v : Byte) : (s.setV x v).FB = s.FB := rfl
@[simp] theorem State.setV_dirty (s : State) (x : Nibble) (v : Byte) : (s.setV x v).dirty = s.dirty := rfl
@[simp] theorem State.setV_key (s : State) (x : Nibble) (v : Byte) : (s.setV x v).key = s.key := rfl
@[simp] theorem State.setV_wait (s : State) (x : Nibble) (v : Byte) : (s.setV x v).wait = s.wait := rfl
@[simp] theorem State.setV_fault (s : State) (x : Nibble) (v : Byte) : (s.setV x v).fault = s.fault := rfl
@[simp] theorem State.setV_draws (s : State) (x : Nibble) (v : Byte) : (s.setV x v).draws = s.draws := rfl
@[simp] theorem State.setV_keyDown (s : State) (x : Nibble) (v : Byte) (j : Fin 16) : keyDown (s.setV x v) j = keyDown s j := rfl

@[simp] theorem State.setAllV_V (s : State) (vs : Vector Byte 16) : (s.setAllV vs).V = vs := rfl
@[simp] theorem State.setAllV_I (s : State) (vs : Vector Byte 16) : (s.setAllV vs).I = s.I := rfl
@[simp] theorem State.setAllV_PC (s : State) (vs : Vector Byte 16) : (s.setAllV vs).PC = s.PC := rfl
@[simp] theorem State.setAllV_stack (s : State) (vs : Vector Byte 16) : (s.setAllV vs).stack = s.stack := rfl
@[simp] theorem State.setAllV_DT (s : State) (vs : Vector Byte 16) : (s.setAllV vs).DT = s.DT := rfl
@[simp] theorem State.setAllV_ST (s : State) (vs : Vector Byte 16) : (s.setAllV vs).ST = s.ST := rfl
@[simp] theorem State.setAllV_mem (s : State) (vs : Vector Byte 16) : (s.setAllV vs).mem = s.mem := rfl
@[simp] theorem State.setAllV_FB (s : State) (vs : Vector Byte 16) : (s.setAllV vs).FB = s.FB := rfl
@[simp] theorem State.setAllV_dirty (s : State) (vs : Vector Byte 16) : (s.setAllV vs).dirty = s.dirty := rfl
@[simp] theorem State.setAllV_key (s : State) (vs : Vector Byte 16) : (s.setAllV vs).key = s.key := rfl
@[simp] theorem State.setAllV_wait (s : State) (vs : Vector Byte 16) : (s.setAllV vs).wait = s.wait := rfl
@[simp] theorem State.setAllV_fault (s : State) (vs : Vector Byte 16) : (s.setAllV vs).fault = s.fault := rfl
@[simp] theorem State.setAllV_draws (s : State) (vs : Vector Byte 16) : (s.setAllV vs).draws = s.draws := rfl
@[simp] theorem State.setAllV_keyDown (s : State) (vs : Vector Byte 16) (j : Fin 16) : keyDown (s.setAllV vs) j = keyDown s j := rfl

@[simp] theorem State.setI_V (s : State) (v : Word) : (s.setI v).V = s.V := rfl
@[simp] theorem State.setI_I (s : State) (v : Word) : (s.setI v).I = v := rfl
@[simp] theorem State.setI_PC (s : State) (v : Word) : (s.setI v).PC = s.PC := rfl
@[simp] theorem State.setI_stack (s : State) (v : Word) : (s.setI v).stack = s.stack := rfl
@[simp] theorem State.setI_DT (s : State) (v : Word) : (s.setI v).DT = s.DT := rfl
@[simp] theorem State.setI_ST (s : State) (v : Word) : (s.setI v).ST = s.ST := rfl
@[simp] theorem State.setI_mem (s : State) (v : Word) : (s.setI v).mem = s.mem := rfl
@[simp] theorem State.setI_FB (s : State) (v : Word) : (s.setI v).FB = s.FB := rfl
@[simp] theorem State.setI_dirty (s : State) (v : Word) : (s.setI v).dirty = s.dirty := rfl
@[simp] theorem State.setI_key (s : State) (v : Word) : (s.setI v).key = s.key := rfl
@[simp] theorem State.setI_wait (s : State) (v : Word) : (s.setI v).wait = s.wait := rfl
@[simp] theorem State.setI_fault (s : State) (v : Word) : (s.setI v).fault = s.fault := rfl
@[simp] theorem State.setI_draws (s : State) (v : Word) : (s.setI v).draws = s.draws := rfl
@[simp] theorem State.setI_readV (s : State) (v : Word) (j : Nibble) : (s.setI v).readV j = s.readV j := rfl
@[simp] theorem State.setI_keyDown (s : State) (v : Word) (j : Fin 16) : keyDown (s.setI v) j = keyDown s j := rfl

@[simp] theorem State.setPC_V (s : State) (v : Word) : (s.setPC v).V = s.V := rfl
@[simp] theorem State.setPC_I (s : State) (v : Word) : (s.setPC v).I = s.I := rfl
@[simp] theorem State.setPC_PC (s : State) (v : Word) : (s.setPC v).PC = v := rfl
@[simp] theorem State.setPC_stack (s : State) (v : Word) : (s.setPC v).stack = s.stack := rfl
@[simp] theorem State.setPC_DT (s : State) (v : Word) : (s.setPC v).DT = s.DT := rfl
@[simp] theorem State.setPC_ST (s : State) (v : Word) : (s.setPC v).ST = s.ST := rfl
@[simp] theorem State.setPC_mem (s : State) (v : Word) : (s.setPC v).mem = s.mem := rfl
@[simp] theorem State.setPC_FB (s : State) (v : Word) : (s.setPC v).FB = s.FB := rfl
@[simp] theorem State.setPC_dirty (s : State) (v : Word) : (s.setPC v).dirty = s.dirty := rfl
@[simp] theorem State.setPC_key (s : State) (v : Word) : (s.setPC v).key = s.key := rfl
@[simp] theorem State.setPC_wait (s : State) (v : Word) : (s.setPC v).wait = s.wait := rfl
@[simp] theorem State.setPC_fault (s : State) (v : Word) : (s.setPC v).fault = s.fault := rfl
@[simp] theorem State.setPC_draws (s : State) (v : Word) : (s.setPC v).draws = s.draws := rfl
@[simp] theorem State.setPC_readV (s : State) (v : Word) (j : Nibble) : (s.setPC v).readV j = s.readV j := rfl
@[simp] theorem State.setPC_keyDown (s : State) (v : Word) (j : Fin 16) : keyDown (s.setPC v) j = keyDown s j := rfl

@[simp] theorem State.setStack_V (s : State) (vs : List Word) : (s.setStack vs).V = s.V := rfl
@[simp] theorem State.setStack_I (s : State) (vs : List Word) : (s.setStack vs).I = s.I := rfl
@[simp] theorem State.setStack_PC (s : State) (vs : List Word) : (s.setStack vs).PC = s.PC := rfl
@[simp] theorem State.setStack_stack (s : State) (vs : List Word) : (s.setStack vs).stack = vs := rfl
@[simp] theorem State.setStack_DT (s : State) (vs : List Word) : (s.setStack vs).DT = s.DT := rfl
@[simp] theorem State.setStack_ST (s : State) (vs : List Word) : (s.setStack vs).ST = s.ST := rfl
@[simp] theorem State.setStack_mem (s : State) (vs : List Word) : (s.setStack vs).mem = s.mem := rfl
@[simp] theorem State.setStack_FB (s : State) (vs : List Word) : (s.setStack vs).FB = s.FB := rfl
@[simp] theorem State.setStack_dirty (s : State) (vs : List Word) : (s.setStack vs).dirty = s.dirty := rfl
@[simp] theorem State.setStack_key (s : State) (vs : List Word) : (s.setStack vs).key = s.key := rfl
@[simp] theorem State.setStack_wait (s : State) (vs : List Word) : (s.setStack vs).wait = s.wait := rfl
@[simp] theorem State.setStack_fault (s : State) (vs : List Word) : (s.setStack vs).fault = s.fault := rfl
@[simp] theorem State.setStack_draws (s : State) (vs : List Word) : (s.setStack vs).draws = s.draws := rfl
@[simp] theorem State.setStack_readV (s : State) (vs : List Word) (j : Nibble) : (s.setStack vs).readV j = s.readV j := rfl
@[simp] theorem State.setStack_keyDown (s : State) (vs : List Word) (j : Fin 16) : keyDown (s.setStack vs) j = keyDown s j := rfl

@[simp] theorem State.setDT_V (s : State) (v : Byte) : (s.setDT v).V = s.V := rfl
@[simp] theorem State.setDT_I (s : State) (v : Byte) : (s.setDT v).I = s.I := rfl
@[simp] theorem State.setDT_PC (s : State) (v : Byte) : (s.setDT v).PC = s.PC := rfl
@[simp] theorem State.setDT_stack (s : State) (v : Byte) : (s.setDT v).stack = s.stack := rfl
@[simp] theorem State.setDT_DT (s : State) (v : Byte) : (s.setDT v).DT = v := rfl
@[simp] theorem State.setDT_ST (s : State) (v : Byte) : (s.setDT v).ST = s.ST := rfl
@[simp] theorem State.setDT_mem (s : State) (v : Byte) : (s.setDT v).mem = s.mem := rfl
@[simp] theorem State.setDT_FB (s : State) (v : Byte) : (s.setDT v).FB = s.FB := rfl
@[simp] theorem State.setDT_dirty (s : State) (v : Byte) : (s.setDT v).dirty = s.dirty := rfl
@[simp] theorem State.setDT_key (s : State) (v : Byte) : (s.setDT v).key = s.key := rfl
@[simp] theorem State.setDT_wait (s : State) (v : Byte) : (s.setDT v).wait = s.wait := rfl
@[simp] theorem State.setDT_fault (s : State) (v : Byte) : (s.setDT v).fault = s.fault := rfl
@[simp] theorem State.setDT_draws (s : State) (v : Byte) : (s.setDT v).draws = s.draws := rfl
@[simp] theorem State.setDT_readV (s : State) (v : Byte) (j : Nibble) : (s.setDT v).readV j = s.readV j := rfl
@[simp] theorem State.setDT_keyDown (s : State) (v : Byte) (j : Fin 16) : keyDown (s.setDT v) j = keyDown s j := rfl

@[simp] theorem State.setST_V (s : State) (v : Byte) : (s.setST v).V = s.V := rfl
@[simp] theorem State.setST_I (s : State) (v : Byte) : (s.setST v).I = s.I := rfl
@[simp] theorem State.setST_PC (s : State) (v : Byte) : (s.setST v).PC = s.PC := rfl
@[simp] theorem State.setST_stack (s : State) (v : Byte) : (s.setST v).stack = s.stack := rfl
@[simp] theorem State.setST_DT (s : State) (v : Byte) : (s.setST v).DT = s.DT := rfl
@[simp] theorem State.setST_ST (s : State) (v : Byte) : (s.setST v).ST = v := rfl
@[simp] theorem State.setST_mem (s : State) (v : Byte) : (s.setST v).mem = s.mem := rfl
@[simp] theorem State.setST_FB (s : State) (v : Byte) : (s.setST v).FB = s.FB := rfl
@[simp] theorem State.setST_dirty (s : State) (v : Byte) : (s.setST v).dirty = s.dirty := rfl
@[simp] theorem State.setST_key (s : State) (v : Byte) : (s.setST v).key = s.key := rfl
@[simp] theorem State.setST_wait (s : State) (v : Byte) : (s.setST v).wait = s.wait := rfl
@[simp] theorem State.setST_fault (s : State) (v : Byte) : (s.setST v).fault = s.fault := rfl
@[simp] theorem State.setST_draws (s : State) (v : Byte) : (s.setST v).draws = s.draws := rfl
@[simp] theorem State.setST_readV (s : State) (v : Byte) (j : Nibble) : (s.setST v).readV j = s.readV j := rfl
@[simp] theorem State.setST_keyDown (s : State) (v : Byte) (j : Fin 16) : keyDown (s.setST v) j = keyDown s j := rfl

@[simp] theorem State.storeBytes_V (s : State) (a : Nat) (vs : List Byte) : (s.storeBytes a vs).V = s.V := rfl
@[simp] theorem State.storeBytes_I (s : State) (a : Nat) (vs : List Byte) : (s.storeBytes a vs).I = s.I := rfl
@[simp] theorem State.storeBytes_PC (s : State) (a : Nat) (vs : List Byte) : (s.storeBytes a vs).PC = s.PC := rfl
@[simp] theorem State.storeBytes_stack (s : State) (a : Nat) (vs : List Byte) : (s.storeBytes a vs).stack = s.stack := rfl
@[simp] theorem State.storeBytes_DT (s : State) (a : Nat) (vs : List Byte) : (s.storeBytes a vs).DT = s.DT := rfl
@[simp] theorem State.storeBytes_ST (s : State) (a : Nat) (vs : List Byte) : (s.storeBytes a vs).ST = s.ST := rfl
@[simp] theorem State.storeBytes_mem (s : State) (a : Nat) (vs : List Byte) : (s.storeBytes a vs).mem = memWriteBytes s.mem a vs := rfl
@[simp] theorem State.storeBytes_FB (s : State) (a : Nat) (vs : List Byte) : (s.storeBytes a vs).FB = s.FB := rfl
@[simp] theorem State.storeBytes_dirty (s : State) (a : Nat) (vs : List Byte) : (s.storeBytes a vs).dirty = s.dirty := rfl
@[simp] theorem State.storeBytes_key (s : State) (a : Nat) (vs : List Byte) : (s.storeBytes a vs).key = s.key := rfl
@[simp] theorem State.storeBytes_wait (s : State) (a : Nat) (vs : List Byte) : (s.storeBytes a vs).wait = s.wait := rfl
@[simp] theorem State.storeBytes_fault (s : State) (a : Nat) (vs : List Byte) : (s.storeBytes a vs).fault = s.fault := rfl
@[simp] theorem State.storeBytes_draws (s : State) (a : Nat) (vs : List Byte) : (s.storeBytes a vs).draws = s.draws := rfl
@[simp] theorem State.storeBytes_readV (s : State) (a : Nat) (vs : List Byte) (j : Nibble) : (s.storeBytes a vs).readV j = s.readV j := rfl
@[simp] theorem State.storeBytes_keyDown (s : State) (a : Nat) (vs : List Byte) (j : Fin 16) : keyDown (s.storeBytes a vs) j = keyDown s j := rfl

@[simp] theorem State.setFrame_V (s : State) (f : Frame) : (s.setFrame f).V = s.V := rfl
@[simp] theorem State.setFrame_I (s : State) (f : Frame) : (s.setFrame f).I = s.I := rfl
@[simp] theorem State.setFrame_PC (s : State) (f : Frame) : (s.setFrame f).PC = s.PC := rfl
@[simp] theorem State.setFrame_stack (s : State) (f : Frame) : (s.setFrame f).stack = s.stack := rfl
@[simp] theorem State.setFrame_DT (s : State) (f : Frame) : (s.setFrame f).DT = s.DT := rfl
@[simp] theorem State.setFrame_ST (s : State) (f : Frame) : (s.setFrame f).ST = s.ST := rfl
@[simp] theorem State.setFrame_mem (s : State) (f : Frame) : (s.setFrame f).mem = s.mem := rfl
@[simp] theorem State.setFrame_FB (s : State) (f : Frame) : (s.setFrame f).FB = f := rfl
@[simp] theorem State.setFrame_dirty (s : State) (f : Frame) : (s.setFrame f).dirty = true := rfl
@[simp] theorem State.setFrame_key (s : State) (f : Frame) : (s.setFrame f).key = s.key := rfl
@[simp] theorem State.setFrame_wait (s : State) (f : Frame) : (s.setFrame f).wait = s.wait := rfl
@[simp] theorem State.setFrame_fault (s : State) (f : Frame) : (s.setFrame f).fault = s.fault := rfl
@[simp] theorem State.setFrame_draws (s : State) (f : Frame) : (s.setFrame f).draws = s.draws := rfl
@[simp] theorem State.setFrame_readV (s : State) (f : Frame) (j : Nibble) : (s.setFrame f).readV j = s.readV j := rfl
@[simp] theorem State.setFrame_keyDown (s : State) (f : Frame) (j : Fin 16) : keyDown (s.setFrame f) j = keyDown s j := rfl

@[simp] theorem State.clearDirtyFlag_V (s : State) : (s.clearDirtyFlag).V = s.V := rfl
@[simp] theorem State.clearDirtyFlag_I (s : State) : (s.clearDirtyFlag).I = s.I := rfl
@[simp] theorem State.clearDirtyFlag_PC (s : State) : (s.clearDirtyFlag).PC = s.PC := rfl
@[simp] theorem State.clearDirtyFlag_stack (s : State) : (s.clearDirtyFlag).stack = s.stack := rfl
@[simp] theorem State.clearDirtyFlag_DT (s : State) : (s.clearDirtyFlag).DT = s.DT := rfl
@[simp] theorem State.clearDirtyFlag_ST (s : State) : (s.clearDirtyFlag).ST = s.ST := rfl
@[simp] theorem State.clearDirtyFlag_mem (s : State) : (s.clearDirtyFlag).mem = s.mem := rfl
@[simp] theorem State.clearDirtyFlag_FB (s : State) : (s.clearDirtyFlag).FB = s.FB := rfl
@[simp] theorem State.clearDirtyFlag_dirty (s : State) : (s.clearDirtyFlag).dirty = false := rfl
@[simp] theorem State.clearDirtyFlag_key (s : State) : (s.clearDirtyFlag).key = s.key := rfl
@[simp] theorem State.clearDirtyFlag_wait (s : State) : (s.clearDirtyFlag).wait = s.wait := rfl
@[simp] theorem State.clearDirtyFlag_fault (s : State) : (s.clearDirtyFlag).fault = s.fault := rfl
@[simp] theorem State.clearDirtyFlag_draws (s : State) : (s.clearDirtyFlag).draws = s.draws := rfl
@[simp] theorem State.clearDirtyFlag_readV (s : State) (j : Nibble) : (s.clearDirtyFlag).readV j = s.readV j := rfl
@[simp] theorem State.clearDirtyFlag_keyDown (s : State) (j : Fin 16) : keyDown (s.clearDirtyFlag) j = keyDown s j := rfl

@[simp] theorem State.setKeyBit_V (s : State) (k : Fin 16) (b : Bool) : (s.setKeyBit k b).V = s.V := rfl
@[simp] theorem State.setKeyBit_I (s : State) (k : Fin 16) (b : Bool) : (s.setKeyBit k b).I = s.I := rfl
@[simp] theorem State.setKeyBit_PC (s : State) (k : Fin 16) (b : Bool) : (s.setKeyBit k b).PC = s.PC := rfl
@[simp] theorem State.setKeyBit_stack (s : State) (k : Fin 16) (b : Bool) : (s.setKeyBit k b).stack = s.stack := rfl
@[simp] theorem State.setKeyBit_DT (s : State) (k : Fin 16) (b : Bool) : (s.setKeyBit k b).DT = s.DT := rfl
@[simp] theorem State.setKeyBit_ST (s : State) (k : Fin 16) (b : Bool) : (s.setKeyBit k b).ST = s.ST := rfl
@[simp] theorem State.setKeyBit_mem (s : State) (k : Fin 16) (b : Bool) : (s.setKeyBit k b).mem = s.mem := rfl
@[simp] theorem State.setKeyBit_FB (s : State) (k : Fin 16) (b : Bool) : (s.setKeyBit k b).FB = s.FB := rfl
@[simp] theorem State.setKeyBit_dirty (s : State) (k : Fin 16) (b : Bool) : (s.setKeyBit k b).dirty = s.dirty := rfl
@[simp] theorem State.setKeyBit_key (s : State) (k : Fin 16) (b : Bool) : (s.setKeyBit k b).key = s.key.set k.val b k.isLt := rfl
@[simp] theorem State.setKeyBit_wait (s : State) (k : Fin 16) (b : Bool) : (s.setKeyBit k b).wait = s.wait := rfl
@[simp] theorem State.setKeyBit_fault (s : State) (k : Fin 16) (b : Bool) : (s.setKeyBit k b).fault = s.fault := rfl
@[simp] theorem State.setKeyBit_draws (s : State) (k : Fin 16) (b : Bool) : (s.setKeyBit k b).draws = s.draws := rfl
@[simp] theorem State.setKeyBit_readV (s : State) (k : Fin 16) (b : Bool) (j : Nibble) : (s.setKeyBit k b).readV j = s.readV j := rfl

@[simp] theorem State.setWait_V (s : State) (w : WaitState) : (s.setWait w).V = s.V := rfl
@[simp] theorem State.setWait_I (s : State) (w : WaitState) : (s.setWait w).I = s.I := rfl
@[simp] theorem State.setWait_PC (s : State) (w : WaitState) : (s.setWait w).PC = s.PC := rfl
@[simp] theorem State.setWait_stack (s : State) (w : WaitState) : (s.setWait w).stack = s.stack := rfl
@[simp] theorem State.setWait_DT (s : State) (w : WaitState) : (s.setWait w).DT = s.DT := rfl
@[simp] theorem State.setWait_ST (s : State) (w : WaitState) : (s.setWait w).ST = s.ST := rfl
@[simp] theorem State.setWait_mem (s : State) (w : WaitState) : (s.setWait w).mem = s.mem := rfl
@[simp] theorem State.setWait_FB (s : State) (w : WaitState) : (s.setWait w).FB = s.FB := rfl
@[simp] theorem State.setWait_dirty (s : State) (w : WaitState) : (s.setWait w).dirty = s.dirty := rfl
@[simp] theorem State.setWait_key (s : State) (w : WaitState) : (s.setWait w).key = s.key := rfl
@[simp] theorem State.setWait_wait (s : State) (w : WaitState) : (s.setWait w).wait = w := rfl
@[simp] theorem State.setWait_fault (s : State) (w : WaitState) : (s.setWait w).fault = s.fault := rfl
@[simp] theorem State.setWait_draws (s : State) (w : WaitState) : (s.setWait w).draws = s.draws := rfl
@[simp] theorem State.setWait_readV (s : State) (w : WaitState) (j : Nibble) : (s.setWait w).readV j = s.readV j := rfl
@[simp] theorem State.setWait_keyDown (s : State) (w : WaitState) (j : Fin 16) : keyDown (s.setWait w) j = keyDown s j := rfl

@[simp] theorem State.countDraw_V (s : State) : (s.countDraw).V = s.V := rfl
@[simp] theorem State.countDraw_I (s : State) : (s.countDraw).I = s.I := rfl
@[simp] theorem State.countDraw_PC (s : State) : (s.countDraw).PC = s.PC := rfl
@[simp] theorem State.countDraw_stack (s : State) : (s.countDraw).stack = s.stack := rfl
@[simp] theorem State.countDraw_DT (s : State) : (s.countDraw).DT = s.DT := rfl
@[simp] theorem State.countDraw_ST (s : State) : (s.countDraw).ST = s.ST := rfl
@[simp] theorem State.countDraw_mem (s : State) : (s.countDraw).mem = s.mem := rfl
@[simp] theorem State.countDraw_FB (s : State) : (s.countDraw).FB = s.FB := rfl
@[simp] theorem State.countDraw_dirty (s : State) : (s.countDraw).dirty = s.dirty := rfl
@[simp] theorem State.countDraw_key (s : State) : (s.countDraw).key = s.key := rfl
@[simp] theorem State.countDraw_wait (s : State) : (s.countDraw).wait = s.wait := rfl
@[simp] theorem State.countDraw_fault (s : State) : (s.countDraw).fault = s.fault := rfl
@[simp] theorem State.countDraw_draws (s : State) : (s.countDraw).draws = s.draws + 1 := rfl
@[simp] theorem State.countDraw_readV (s : State) (j : Nibble) : (s.countDraw).readV j = s.readV j := rfl
@[simp] theorem State.countDraw_keyDown (s : State) (j : Fin 16) : keyDown (s.countDraw) j = keyDown s j := rfl

@[simp] theorem State.advance_V (s : State) (p : PcPolicy) : (s.advance p).V = s.V := rfl
@[simp] theorem State.advance_I (s : State) (p : PcPolicy) : (s.advance p).I = s.I := rfl
@[simp] theorem State.advance_PC (s : State) (p : PcPolicy) : (s.advance p).PC = pcAfter p s.PC := rfl
@[simp] theorem State.advance_stack (s : State) (p : PcPolicy) : (s.advance p).stack = s.stack := rfl
@[simp] theorem State.advance_DT (s : State) (p : PcPolicy) : (s.advance p).DT = s.DT := rfl
@[simp] theorem State.advance_ST (s : State) (p : PcPolicy) : (s.advance p).ST = s.ST := rfl
@[simp] theorem State.advance_mem (s : State) (p : PcPolicy) : (s.advance p).mem = s.mem := rfl
@[simp] theorem State.advance_FB (s : State) (p : PcPolicy) : (s.advance p).FB = s.FB := rfl
@[simp] theorem State.advance_dirty (s : State) (p : PcPolicy) : (s.advance p).dirty = s.dirty := rfl
@[simp] theorem State.advance_key (s : State) (p : PcPolicy) : (s.advance p).key = s.key := rfl
@[simp] theorem State.advance_wait (s : State) (p : PcPolicy) : (s.advance p).wait = s.wait := rfl
@[simp] theorem State.advance_fault (s : State) (p : PcPolicy) : (s.advance p).fault = s.fault := rfl
@[simp] theorem State.advance_draws (s : State) (p : PcPolicy) : (s.advance p).draws = s.draws := rfl
@[simp] theorem State.advance_readV (s : State) (p : PcPolicy) (j : Nibble) : (s.advance p).readV j = s.readV j := rfl
@[simp] theorem State.advance_keyDown (s : State) (p : PcPolicy) (j : Fin 16) : keyDown (s.advance p) j = keyDown s j := rfl

@[simp] theorem State.setVF_I (s : State) (b : Bool) : (s.setVF b).I = s.I := rfl
@[simp] theorem State.setVF_PC (s : State) (b : Bool) : (s.setVF b).PC = s.PC := rfl
@[simp] theorem State.setVF_stack (s : State) (b : Bool) : (s.setVF b).stack = s.stack := rfl
@[simp] theorem State.setVF_DT (s : State) (b : Bool) : (s.setVF b).DT = s.DT := rfl
@[simp] theorem State.setVF_ST (s : State) (b : Bool) : (s.setVF b).ST = s.ST := rfl
@[simp] theorem State.setVF_mem (s : State) (b : Bool) : (s.setVF b).mem = s.mem := rfl
@[simp] theorem State.setVF_FB (s : State) (b : Bool) : (s.setVF b).FB = s.FB := rfl
@[simp] theorem State.setVF_dirty (s : State) (b : Bool) : (s.setVF b).dirty = s.dirty := rfl
@[simp] theorem State.setVF_key (s : State) (b : Bool) : (s.setVF b).key = s.key := rfl
@[simp] theorem State.setVF_wait (s : State) (b : Bool) : (s.setVF b).wait = s.wait := rfl
@[simp] theorem State.setVF_fault (s : State) (b : Bool) : (s.setVF b).fault = s.fault := rfl
@[simp] theorem State.setVF_draws (s : State) (b : Bool) : (s.setVF b).draws = s.draws := rfl
@[simp] theorem State.setVF_keyDown (s : State) (b : Bool) (j : Fin 16) : keyDown (s.setVF b) j = keyDown s j := rfl

@[simp] theorem State.setResultThenFlag_I (s : State) (x : Nibble) (r : Byte) (f : Bool) : (s.setResultThenFlag x r f).I = s.I := rfl
@[simp] theorem State.setResultThenFlag_PC (s : State) (x : Nibble) (r : Byte) (f : Bool) : (s.setResultThenFlag x r f).PC = s.PC := rfl
@[simp] theorem State.setResultThenFlag_stack (s : State) (x : Nibble) (r : Byte) (f : Bool) : (s.setResultThenFlag x r f).stack = s.stack := rfl
@[simp] theorem State.setResultThenFlag_DT (s : State) (x : Nibble) (r : Byte) (f : Bool) : (s.setResultThenFlag x r f).DT = s.DT := rfl
@[simp] theorem State.setResultThenFlag_ST (s : State) (x : Nibble) (r : Byte) (f : Bool) : (s.setResultThenFlag x r f).ST = s.ST := rfl
@[simp] theorem State.setResultThenFlag_mem (s : State) (x : Nibble) (r : Byte) (f : Bool) : (s.setResultThenFlag x r f).mem = s.mem := rfl
@[simp] theorem State.setResultThenFlag_FB (s : State) (x : Nibble) (r : Byte) (f : Bool) : (s.setResultThenFlag x r f).FB = s.FB := rfl
@[simp] theorem State.setResultThenFlag_dirty (s : State) (x : Nibble) (r : Byte) (f : Bool) : (s.setResultThenFlag x r f).dirty = s.dirty := rfl
@[simp] theorem State.setResultThenFlag_key (s : State) (x : Nibble) (r : Byte) (f : Bool) : (s.setResultThenFlag x r f).key = s.key := rfl
@[simp] theorem State.setResultThenFlag_wait (s : State) (x : Nibble) (r : Byte) (f : Bool) : (s.setResultThenFlag x r f).wait = s.wait := rfl
@[simp] theorem State.setResultThenFlag_fault (s : State) (x : Nibble) (r : Byte) (f : Bool) : (s.setResultThenFlag x r f).fault = s.fault := rfl
@[simp] theorem State.setResultThenFlag_draws (s : State) (x : Nibble) (r : Byte) (f : Bool) : (s.setResultThenFlag x r f).draws = s.draws := rfl
@[simp] theorem State.setResultThenFlag_keyDown (s : State) (x : Nibble) (r : Byte) (f : Bool) (j : Fin 16) : keyDown (s.setResultThenFlag x r f) j = keyDown s j := rfl

/-! ## The registers as they are read -/

@[simp] theorem State.setV_readV (s : State) (x j : Nibble) (v : Byte) :
    (s.setV x v).readV j = if j = x then v else s.readV j := by
  simp [State.readV, Vector.getElem_set, BitVec.toNat_inj, eq_comm]

@[simp] theorem State.setAllV_readV (s : State) (vs : Vector Byte 16) (j : Nibble) :
    (s.setAllV vs).readV j = vs[j.toNat]'j.isLt := rfl

@[simp] theorem State.setVF_readV (s : State) (b : Bool) (j : Nibble) :
    (s.setVF b).readV j = if j = flagReg then flagByte b else s.readV j := by
  simp [State.setVF]

/-- R97: with x = F the flag is what stays. -/
@[simp] theorem State.setResultThenFlag_readV (s : State) (x j : Nibble) (r : Byte) (f : Bool) :
    (s.setResultThenFlag x r f).readV j =
      if j = flagReg then flagByte f else if j = x then r else s.readV j := by
  simp [State.setResultThenFlag]

@[simp] theorem State.setKeyBit_keyDown (s : State) (k j : Fin 16) (b : Bool) :
    keyDown (s.setKeyBit k b) j = if j = k then b else keyDown s j := by
  simp [keyDown, Vector.getElem_set, Fin.ext_iff, eq_comm]

/-- The registers are what reading each of them gives. -/
theorem State.V_ext {s t : State} (h : ∀ j : Nibble, t.readV j = s.readV j) : t.V = s.V := by
  apply Vector.ext
  intro i hi
  have := h (BitVec.ofNat 4 i)
  have e : i % 16 = i := Nat.mod_eq_of_lt hi
  simpa [State.readV, e] using this

/-- The input latch is what reading each of its keys gives. -/
theorem State.key_ext {s t : State} (h : ∀ k : Fin 16, keyDown t k = keyDown s k) : t.key = s.key := by
  apply Vector.ext
  intro i hi
  exact h ⟨i, hi⟩

end Sys2Proof.Machine
end

