-- ==== Sys2Proof/Laws/Ops.lean ====
section
/-!
SUPPORT. What each shared operation of the meanings can answer, said once.
-/
namespace Sys2Proof.Machine

/-- An instruction that completes answers its writes with its policy applied, and nothing else. -/
theorem complete_eq_next {s t : State} {p : PcPolicy} : complete s p = .next t ↔ s.advance p = t := by
  simp [complete]

/-- A span check that passes changes nothing. -/
theorem checkSpan_pass {a n : Nat} (h : n = 0 ∨ a + n ≤ Config.memSize) (k : Result) : checkSpan a n k = k := by
  rw [checkSpan, if_pos ((spanOk_iff a n).2 h)]

/-- A span check that fails answers AddressOverflow (R54). -/
theorem checkSpan_fail {a n : Nat} (h : ¬(n = 0 ∨ a + n ≤ Config.memSize)) (k : Result) :
    checkSpan a n k = .fault .addressOverflow := by
  rw [checkSpan, if_neg (fun e => h ((spanOk_iff a n).1 e)), raiseFault]

/-- An instruction behind a span check goes on only if the whole span lies inside memory. -/
theorem checkSpan_eq_next {a n : Nat} {k : Result} {t : State} :
    checkSpan a n k = .next t ↔ (n = 0 ∨ a + n ≤ Config.memSize) ∧ k = .next t := by
  by_cases h : n = 0 ∨ a + n ≤ Config.memSize
  · simp [checkSpan_pass h, h]
  · simp [checkSpan_fail h, h]

/-- A conditional skip always completes and changes only PC. -/
theorem skipIf_eq (c : Bool) (s : State) : skipIf c s = .next (s.advance (if c then .skip else .step)) := rfl

/-- A jump always completes and changes only PC. -/
theorem jumpTo_eq (target : Word) (s : State) : jumpTo target s = .next ((s.setPC target).advance .keep) := rfl

@[simp] theorem pcAfter_keep (pc : Word) : pcAfter .keep pc = pc := rfl

@[simp] theorem pcAfter_step (pc : Word) : pcAfter .step pc = pc + 2 := rfl

@[simp] theorem pcAfter_skip (pc : Word) : pcAfter .skip pc = pc + 4 := rfl

/-- The policy of a conditional skip. -/
theorem pcAfter_ite (c : Bool) (pc : Word) :
    pcAfter (if c then .skip else .step) pc = if c then pc + 4 else pc + 2 := by
  cases c <;> rfl

/-! ## Values -/

@[simp] theorem addr16_toNat (nnn : Addr12) : (addr16 nnn).toNat = nnn.toNat := by
  have := nnn.isLt
  simp only [addr16, BitVec.toNat_setWidth]
  omega

@[simp] theorem zext16_toNat (v : Byte) : (zext16 v).toNat = v.toNat := by
  have := v.isLt
  simp only [zext16, BitVec.toNat_setWidth]
  omega

@[simp] theorem addMod_toNat (a b : Byte) : (addMod a b).toNat = (a.toNat + b.toNat) % 256 := by
  simp [addMod]

@[simp] theorem subMod_toNat (a b : Byte) : (subMod a b).toNat = (a.toNat + 256 - b.toNat) % 256 := by
  simp [subMod]

@[simp] theorem shiftRight1_toNat (v : Byte) : (shiftRight1 v).toNat = v.toNat / 2 := by
  simp [shiftRight1, Nat.shiftRight_eq_div_pow]

@[simp] theorem shiftLeft1_toNat (v : Byte) : (shiftLeft1 v).toNat = v.toNat * 2 % 256 := by
  simp [shiftLeft1, Nat.shiftLeft_eq]

theorem carryFlag_iff (a b : Byte) : carryFlag a b = true ↔ 255 < a.toNat + b.toNat := by
  simp [carryFlag]

theorem noBorrowFlag_iff (a b : Byte) : noBorrowFlag a b = true ↔ b.toNat ≤ a.toNat := by
  simp [noBorrowFlag]

theorem lsbFlag_iff (v : Byte) : lsbFlag v = true ↔ v.toNat % 2 = 1 := by
  simp [lsbFlag, BitVec.getLsbD, Nat.testBit_zero]

theorem msbFlag_iff (v : Byte) : msbFlag v = true ↔ 128 ≤ v.toNat := by
  have := v.isLt
  simp only [msbFlag, BitVec.getLsbD, Nat.testBit_eq_decide_div_mod_eq, decide_eq_true_eq]
  omega

theorem flagByte_eq_one (b : Bool) : flagByte b = 1#8 ↔ b = true := by cases b <;> decide

theorem flagByte_eq_zero (b : Bool) : flagByte b = 0#8 ↔ b = false := by cases b <;> decide

@[simp] theorem saturatingIndex_toNat (i : Word) (v : Byte) :
    (saturatingIndex i v).toNat = min (i.toNat + v.toNat) 0xFFFF := by
  simp only [saturatingIndex, BitVec.toNat_ofNat]
  omega

@[simp] theorem glyphAddr_toNat (v : Byte) : (glyphAddr v).toNat = 0x050 + 5 * v.toNat := by
  have := v.isLt
  simp only [glyphAddr, BitVec.toNat_ofNat, Config.fontBase, Config.glyphBytes]
  omega

theorem indexPast_toNat {s : State} {x : Nibble} (h : s.I.toNat + x.toNat ≤ 0xFFF) :
    (indexPast s x).toNat = s.I.toNat + x.toNat + 1 := by
  simp only [indexPast, blockLen, BitVec.toNat_ofNat]
  omega

/-- The three digits as numbers (R173). -/
theorem bcdDigits_toNat (v : Byte) :
    (bcdDigits v).map BitVec.toNat = [v.toNat / 100, v.toNat / 10 % 10, v.toNat % 10] := by
  have := v.isLt
  simp only [bcdDigits, List.map_cons, List.map_nil, BitVec.toNat_ofNat]
  congr 1
  · omega
  · congr 1
    · omega
    · congr 1; omega

/-! ## Keys -/

theorem keyIndex_of_lt {v : Byte} {k : Fin 16} (h : v.toNat = k.val) : keyIndex v = some k := by
  have hk := k.isLt
  rw [keyIndex, dif_pos (by omega)]
  simp [h]

theorem keyIndex_eq_none {v : Byte} : keyIndex v = none ↔ 15 < v.toNat := by
  by_cases h : v.toNat < 16 <;> simp [keyIndex, h] <;> omega

/-- The lowest pressed key is pressed and no lower one is (R225). -/
theorem lowestKey_eq_some {s : State} {k : Fin 16} :
    lowestKey s = some k ↔ keyDown s k = true ∧ ∀ j : Fin 16, j < k → keyDown s j = false := by
  have only : ∀ k' : Fin 16, keyDown s k' = true → (∀ j : Fin 16, j < k' → keyDown s j = false) →
      ∀ k : Fin 16, keyDown s k = true → (∀ j : Fin 16, j < k → keyDown s j = false) → k' = k := by
    intro k' h1 h2 k h3 h4
    rcases lt_trichotomy k' k with h | h | h
    · rw [h4 k' h] at h1; cases h1
    · exact h
    · rw [h2 k h] at h3; cases h3
  have spec : ∀ k' : Fin 16, lowestKey s = some k' →
      keyDown s k' = true ∧ ∀ j : Fin 16, j < k' → keyDown s j = false := by
    intro k' h
    rw [lowestKey, List.find?_eq_some_iff_getElem] at h
    obtain ⟨h1, i, hi, h2, h3⟩ := h
    refine ⟨h1, fun j hj => ?_⟩
    have e : i = k'.val := by rw [← h2]; simp
    have := h3 j.val (by rw [e]; exact hj)
    simpa using this
  constructor
  · exact spec k
  · rintro ⟨h1, h2⟩
    cases hl : lowestKey s with
    | none =>
      rw [lowestKey, List.find?_eq_none] at hl
      exact absurd h1 (hl k (List.mem_finRange k))
    | some k' =>
      obtain ⟨h3, h4⟩ := spec k' hl
      rw [only k' h3 h4 k h1 h2]

theorem lowestKey_eq_none {s : State} : lowestKey s = none ↔ ∀ k : Fin 16, keyDown s k = false := by
  simp [lowestKey]

/-! ## Fetch -/

/-- What the fetch answers: an instruction only from two bytes inside memory whose big-endian word decodes to it
(R55, R92, R93). -/
theorem fetchInstr_eq_ok {s : State} {i : Instr} :
    fetchInstr s = .ok i ↔ s.PC.toNat + 1 ≤ 0xFFF ∧ decode (wordAt s.mem s.PC.toNat) = .ok i := by
  have e : spanOk s.PC.toNat Config.insnBytes = true ↔ s.PC.toNat + 1 ≤ 0xFFF := by
    rw [spanOk_iff, Config.insnBytes, Config.memSize]; omega
  rw [fetchInstr]
  by_cases h : s.PC.toNat + 1 ≤ 0xFFF
  · rw [if_pos (e.2 h)]
    cases hd : decode (wordAt s.mem s.PC.toNat) <;> simp [h]
  · rw [if_neg (fun e' => h (e.1 e'))]
    simp [h]

/-- The fetch depends on PC and memory alone. -/
theorem fetchInstr_congr {s t : State} (hp : t.PC = s.PC) (hm : t.mem = s.mem) : fetchInstr t = fetchInstr s := by
  rw [fetchInstr, fetchInstr, hp, hm]

/-- What a completed step is: no fault, an instruction fetched, and that instruction's own next state. -/
theorem step_eq_next {s t : State} :
    step s = .next t ↔ s.fault = none ∧ ∃ i, fetchInstr s = .ok i ∧ exec i s = .next t := by
  rw [step]
  cases hf : s.fault with
  | some k => simp [raiseFault]
  | none => cases hi : fetchInstr s <;> simp [raiseFault]

end Sys2Proof.Machine
end

