-- ==== Sys2Proof/Laws/Exec.lean ====
section
/-!
SUPPORT. What each instruction that has a check of its own can answer: its one next state, and when. Every other
instruction answers its next state by unfolding its meaning.
-/
namespace Sys2Proof.Machine

/-- 00EE completes only on a stack with a top, and then pops it into PC. -/
theorem execRet_eq_next {s t : State} :
    execRet s = .next t ↔
      ∃ top, s.stack.getLast? = some top ∧ ((s.setStack s.stack.dropLast).setPC top).advance .keep = t := by
  rw [execRet]
  cases h : s.stack.getLast? <;> simp [raiseFault, complete]

/-- 2NNN completes only below the depth limit, and then pushes PC + 2 and jumps. -/
theorem execCall_eq_next {nnn : Addr12} {s t : State} :
    execCall nnn s = .next t ↔
      s.stack.length < Config.stackDepth ∧
        ((s.setStack (s.stack ++ [s.PC + 2])).setPC (addr16 nnn)).advance .keep = t := by
  rw [execCall]
  by_cases h : s.stack.length < Config.stackDepth <;> simp [h, raiseFault, complete]

/-- A key test completes only on a value that is a key index, and then skips or steps. -/
theorem keyTest_eq_next {v : Byte} {want : Bool} {s t : State} :
    keyTest v want s = .next t ↔
      ∃ k, keyIndex v = some k ∧ s.advance (if keyDown s k == want then .skip else .step) = t := by
  rw [keyTest]
  cases h : keyIndex v <;> simp [raiseFault, skipIf, complete]

/-- FX0A always completes: with the lowest pressed key, or waiting. -/
theorem execLdVxK_eq_next {x : Nibble} {s t : State} :
    execLdVxK x s = .next t ↔
      (∃ k, lowestKey s = some k ∧ ((s.setV x (BitVec.ofNat 8 k.val)).setWait .idle).advance .step = t) ∨
      (lowestKey s = none ∧ (s.setWait .awaitingKey).advance .keep = t) := by
  rw [execLdVxK]
  cases h : lowestKey s <;> simp [complete]

/-- The span of FX33 in the words of its rule (R173). -/
theorem digitSpan_iff {s : State} :
    (3 = 0 ∨ memOperand s 0 + 3 ≤ Config.memSize) ↔ s.I.toNat + 2 ≤ 0xFFF := by
  simp only [memOperand, Config.memSize]
  omega

/-- The span of FX55 and FX65 in the words of their rules (R174, R175). -/
theorem blockSpan_iff {s : State} {x : Nibble} :
    (blockLen x = 0 ∨ memOperand s 0 + blockLen x ≤ Config.memSize) ↔ s.I.toNat + x.toNat ≤ 0xFFF := by
  simp only [memOperand, blockLen, Config.memSize]
  omega

/-- The span of DXYN in the words of its rule (R191). -/
theorem spriteSpan_iff {s : State} {n : Nibble} :
    (n.toNat = 0 ∨ memOperand s 0 + n.toNat ≤ Config.memSize) ↔
      n.toNat = 0 ∨ s.I.toNat + n.toNat - 1 ≤ 0xFFF := by
  simp only [memOperand, Config.memSize]
  omega

/-- FX33 completes only if its three bytes lie inside memory. -/
theorem execLdB_eq_next {x : Nibble} {s t : State} :
    execLdB x s = .next t ↔ s.I.toNat + 2 ≤ 0xFFF ∧
      (s.storeBytes s.I.toNat (bcdDigits (s.readV x))).advance .step = t := by
  rw [execLdB, checkSpan_eq_next, digitSpan_iff, complete_eq_next]
  rfl

/-- FX55 completes only if its block lies inside memory. -/
theorem execLdMemVx_eq_next {x : Nibble} {s t : State} :
    execLdMemVx x s = .next t ↔ s.I.toNat + x.toNat ≤ 0xFFF ∧
      ((s.storeBytes s.I.toNat (regBlock s x)).setI (indexPast s x)).advance .step = t := by
  rw [execLdMemVx, checkSpan_eq_next, blockSpan_iff, complete_eq_next]
  rfl

/-- FX65 completes only if its block lies inside memory. -/
theorem execLdVxMem_eq_next {x : Nibble} {s t : State} :
    execLdVxMem x s = .next t ↔ s.I.toNat + x.toNat ≤ 0xFFF ∧
      ((s.setAllV (loadBlock s x)).setI (indexPast s x)).advance .step = t := by
  rw [execLdVxMem, checkSpan_eq_next, blockSpan_iff, complete_eq_next]

/-- DXYN completes only if all its rows lie inside memory, drawn or clipped. -/
theorem execDrw_eq_next {x y n : Nibble} {s t : State} :
    execDrw x y n s = .next t ↔ (n.toNat = 0 ∨ s.I.toNat + n.toNat - 1 ≤ 0xFFF) ∧
      ((s.setFrame (drawSprite s.FB (s.readV x).toNat (s.readV y).toNat
          (memReadBytes s.mem s.I.toNat n.toNat)).1).setVF
        (drawSprite s.FB (s.readV x).toNat (s.readV y).toNat
          (memReadBytes s.mem s.I.toNat n.toNat)).2).advance .step = t := by
  rw [execDrw, checkSpan_eq_next, spriteSpan_iff]
  simp only [complete_eq_next]
  rfl

/-! ## Faults, timers and waiting -/

/-- Recording the fault that is already there changes nothing (R91). -/
theorem raise_of_faulted {s : State} {k : Fault} (h : s.fault = some k) : s.raise k = s := by
  cases s
  simp_all [State.raise]

/-- What a whole `step()` call leaves, when it completes and when it faults (R90, R246). -/
theorem stepCall_of_next {s t : State} (h : step s = .next t) : stepCall s = (t, .ok) := by
  simp [stepCall, settle, h]

theorem stepCall_of_fault {s : State} {k : Fault} (h : step s = .fault k) : stepCall s = (s.raise k, .fault k) := by
  simp [stepCall, settle, h]

/-- `tick()` on a core without a fault (R213). -/
theorem tick_of_running {s : State} (h : s.fault = none) :
    tick s = .next ((s.setDT (countDown s.DT)).setST (countDown s.ST)) := by
  simp [tick, h]

/-- A timer counts down by 1, floored at 0 (R213). -/
@[simp] theorem countDown_toNat (v : Byte) : (countDown v).toNat = v.toNat - 1 := by
  by_cases h : v = 0
  · simp [countDown, h]
  · have h0 : v.toNat ≠ 0 := fun e => h (BitVec.eq_of_toNat_eq e)
    have := v.isLt
    rw [countDown, if_neg h, BitVec.toNat_sub]
    simp
    omega

/-- Being at a key wait depends on PC and memory alone. -/
theorem atKeyWait_congr {s t : State} (hp : t.PC = s.PC) (hm : t.mem = s.mem) (h : AtKeyWait s) : AtKeyWait t := by
  obtain ⟨x, hx⟩ := h
  exact ⟨x, (fetchInstr_congr hp hm).trans hx⟩

/-- Where a sprite of N rows at (Vx, Vy) brings a set bit, row by row and column by column (R191). -/
theorem spriteAt_memReadBytes {x y n : Nibble} {s : State} {px py : Nat} :
    spriteAt (memReadBytes s.mem s.I.toNat n.toNat) (s.readV x).toNat (s.readV y).toNat px py = true ↔
      ∃ r c, OnScreen s x y n r c ∧ px = (s.readV x).toNat + c ∧ py = (s.readV y).toNat + r ∧
        rowBit s r c = true := by
  simp only [spriteAt, Bool.and_eq_true, decide_eq_true_eq]
  constructor
  · rintro ⟨⟨h1, h2, h3, h4, h5⟩, h6⟩
    by_cases h7 : py - (s.readV y).toNat < n.toNat
    · refine ⟨py - (s.readV y).toNat, px - (s.readV x).toNat, ⟨h7, by omega, by omega, by omega⟩, by omega,
        by omega, ?_⟩
      rw [List.getD_eq_getElem _ _ (by simpa using h7), memReadBytes_getElem] at h6
      exact h6
    · rw [List.getD_eq_default _ _ (by simpa using h7)] at h6
      simp at h6
  · rintro ⟨r, c, ⟨h1, h2, h3, h4⟩, rfl, rfl, h5⟩
    refine ⟨by omega, ?_⟩
    rw [List.getD_eq_getElem _ _ (by simp; omega), memReadBytes_getElem]
    simpa [spriteBit, rowBit] using h5

end Sys2Proof.Machine
end

