-- ==== Sys2Proof/Laws/PerInstr.lean ====
section
/-!
SUPPORT. Statements made per instruction, one lemma per constructor.
-/
namespace Sys2Proof

/-- The word of the instruction has the constant digits of a row of the opcode map, and that row's fields, read from
the word, are the instruction's operands (R74, R75). -/
def Laws.InOpcodeMap.Statement (i : Instr) : Prop :=
  ∃ r : OpRow, r ∈ opcodeMap ∧ r.hits (encode i) = true ∧ r.build (encode i) = i

theorem Laws.InOpcodeMap.cls : Laws.InOpcodeMap.Statement .cls :=
  ⟨⟨"CLS", 0xFFFF, 0x00E0, fun _ => .cls⟩, by simp [opcodeMap], by simp [OpRow.hits, encode, mask_all], rfl⟩

theorem Laws.InOpcodeMap.ret : Laws.InOpcodeMap.Statement .ret :=
  ⟨⟨"RET", 0xFFFF, 0x00EE, fun _ => .ret⟩, by simp [opcodeMap], by simp [OpRow.hits, encode, mask_all], rfl⟩

theorem Laws.InOpcodeMap.sys (nnn : Addr12) : Laws.InOpcodeMap.Statement (.sys nnn) :=
  ⟨⟨"SYS_nnn", 0xF000, 0x0000, fun w => .sys (addrField w)⟩, by simp [opcodeMap], by simp [OpRow.hits, encode, mask_major], by simp [encode]⟩

theorem Laws.InOpcodeMap.jp (nnn : Addr12) : Laws.InOpcodeMap.Statement (.jp nnn) :=
  ⟨⟨"JP_nnn", 0xF000, 0x1000, fun w => .jp (addrField w)⟩, by simp [opcodeMap], by simp [OpRow.hits, encode, mask_major], by simp [encode]⟩

theorem Laws.InOpcodeMap.call (nnn : Addr12) : Laws.InOpcodeMap.Statement (.call nnn) :=
  ⟨⟨"CALL_nnn", 0xF000, 0x2000, fun w => .call (addrField w)⟩, by simp [opcodeMap], by simp [OpRow.hits, encode, mask_major], by simp [encode]⟩

theorem Laws.InOpcodeMap.seImm (x : Nibble) (kk : Byte) : Laws.InOpcodeMap.Statement (.seImm x kk) :=
  ⟨⟨"SE_Vx__kk", 0xF000, 0x3000, fun w => .seImm (xField w) (byteField w)⟩, by simp [opcodeMap], by simp [OpRow.hits, encode, mask_major], by simp [encode]⟩

theorem Laws.InOpcodeMap.sneImm (x : Nibble) (kk : Byte) : Laws.InOpcodeMap.Statement (.sneImm x kk) :=
  ⟨⟨"SNE_Vx__kk", 0xF000, 0x4000, fun w => .sneImm (xField w) (byteField w)⟩, by simp [opcodeMap], by simp [OpRow.hits, encode, mask_major], by simp [encode]⟩

theorem Laws.InOpcodeMap.seReg (x y : Nibble) : Laws.InOpcodeMap.Statement (.seReg x y) :=
  ⟨⟨"SE_Vx__Vy", 0xF00F, 0x5000, fun w => .seReg (xField w) (yField w)⟩, by simp [opcodeMap], by simp [OpRow.hits, encode, mask_low_nibble], by simp [encode]⟩

theorem Laws.InOpcodeMap.ldImm (x : Nibble) (kk : Byte) : Laws.InOpcodeMap.Statement (.ldImm x kk) :=
  ⟨⟨"LD_Vx__kk", 0xF000, 0x6000, fun w => .ldImm (xField w) (byteField w)⟩, by simp [opcodeMap], by simp [OpRow.hits, encode, mask_major], by simp [encode]⟩

theorem Laws.InOpcodeMap.addImm (x : Nibble) (kk : Byte) : Laws.InOpcodeMap.Statement (.addImm x kk) :=
  ⟨⟨"ADD_Vx__kk", 0xF000, 0x7000, fun w => .addImm (xField w) (byteField w)⟩, by simp [opcodeMap], by simp [OpRow.hits, encode, mask_major], by simp [encode]⟩

theorem Laws.InOpcodeMap.ldReg (x y : Nibble) : Laws.InOpcodeMap.Statement (.ldReg x y) :=
  ⟨⟨"LD_Vx__Vy", 0xF00F, 0x8000, fun w => .ldReg (xField w) (yField w)⟩, by simp [opcodeMap], by simp [OpRow.hits, encode, mask_low_nibble], by simp [encode]⟩

theorem Laws.InOpcodeMap.orReg (x y : Nibble) : Laws.InOpcodeMap.Statement (.orReg x y) :=
  ⟨⟨"OR_Vx__Vy", 0xF00F, 0x8001, fun w => .orReg (xField w) (yField w)⟩, by simp [opcodeMap], by simp [OpRow.hits, encode, mask_low_nibble], by simp [encode]⟩

theorem Laws.InOpcodeMap.andReg (x y : Nibble) : Laws.InOpcodeMap.Statement (.andReg x y) :=
  ⟨⟨"AND_Vx__Vy", 0xF00F, 0x8002, fun w => .andReg (xField w) (yField w)⟩, by simp [opcodeMap], by simp [OpRow.hits, encode, mask_low_nibble], by simp [encode]⟩

theorem Laws.InOpcodeMap.xorReg (x y : Nibble) : Laws.InOpcodeMap.Statement (.xorReg x y) :=
  ⟨⟨"XOR_Vx__Vy", 0xF00F, 0x8003, fun w => .xorReg (xField w) (yField w)⟩, by simp [opcodeMap], by simp [OpRow.hits, encode, mask_low_nibble], by simp [encode]⟩

theorem Laws.InOpcodeMap.addReg (x y : Nibble) : Laws.InOpcodeMap.Statement (.addReg x y) :=
  ⟨⟨"ADD_Vx__Vy", 0xF00F, 0x8004, fun w => .addReg (xField w) (yField w)⟩, by simp [opcodeMap], by simp [OpRow.hits, encode, mask_low_nibble], by simp [encode]⟩

theorem Laws.InOpcodeMap.subReg (x y : Nibble) : Laws.InOpcodeMap.Statement (.subReg x y) :=
  ⟨⟨"SUB_Vx__Vy", 0xF00F, 0x8005, fun w => .subReg (xField w) (yField w)⟩, by simp [opcodeMap], by simp [OpRow.hits, encode, mask_low_nibble], by simp [encode]⟩

theorem Laws.InOpcodeMap.shrReg (x y : Nibble) : Laws.InOpcodeMap.Statement (.shrReg x y) :=
  ⟨⟨"SHR_Vx__Vy", 0xF00F, 0x8006, fun w => .shrReg (xField w) (yField w)⟩, by simp [opcodeMap], by simp [OpRow.hits, encode, mask_low_nibble], by simp [encode]⟩

theorem Laws.InOpcodeMap.subnReg (x y : Nibble) : Laws.InOpcodeMap.Statement (.subnReg x y) :=
  ⟨⟨"SUBN_Vx__Vy", 0xF00F, 0x8007, fun w => .subnReg (xField w) (yField w)⟩, by simp [opcodeMap], by simp [OpRow.hits, encode, mask_low_nibble], by simp [encode]⟩

theorem Laws.InOpcodeMap.shlReg (x y : Nibble) : Laws.InOpcodeMap.Statement (.shlReg x y) :=
  ⟨⟨"SHL_Vx__Vy", 0xF00F, 0x800E, fun w => .shlReg (xField w) (yField w)⟩, by simp [opcodeMap], by simp [OpRow.hits, encode, mask_low_nibble], by simp [encode]⟩

theorem Laws.InOpcodeMap.sneReg (x y : Nibble) : Laws.InOpcodeMap.Statement (.sneReg x y) :=
  ⟨⟨"SNE_Vx__Vy", 0xF00F, 0x9000, fun w => .sneReg (xField w) (yField w)⟩, by simp [opcodeMap], by simp [OpRow.hits, encode, mask_low_nibble], by simp [encode]⟩

theorem Laws.InOpcodeMap.ldI (nnn : Addr12) : Laws.InOpcodeMap.Statement (.ldI nnn) :=
  ⟨⟨"LD_I__nnn", 0xF000, 0xA000, fun w => .ldI (addrField w)⟩, by simp [opcodeMap], by simp [OpRow.hits, encode, mask_major], by simp [encode]⟩

theorem Laws.InOpcodeMap.jpV0 (nnn : Addr12) : Laws.InOpcodeMap.Statement (.jpV0 nnn) :=
  ⟨⟨"JP_V0__nnn", 0xF000, 0xB000, fun w => .jpV0 (addrField w)⟩, by simp [opcodeMap], by simp [OpRow.hits, encode, mask_major], by simp [encode]⟩

theorem Laws.InOpcodeMap.rnd (x : Nibble) (kk : Byte) : Laws.InOpcodeMap.Statement (.rnd x kk) :=
  ⟨⟨"RND_Vx__kk", 0xF000, 0xC000, fun w => .rnd (xField w) (byteField w)⟩, by simp [opcodeMap], by simp [OpRow.hits, encode, mask_major], by simp [encode]⟩

theorem Laws.InOpcodeMap.drw (x y n : Nibble) : Laws.InOpcodeMap.Statement (.drw x y n) :=
  ⟨⟨"DRW_Vx__Vy__n", 0xF000, 0xD000, fun w => .drw (xField w) (yField w) (nField w)⟩, by simp [opcodeMap], by simp [OpRow.hits, encode, mask_major], by simp [encode]⟩

theorem Laws.InOpcodeMap.skp (x : Nibble) : Laws.InOpcodeMap.Statement (.skp x) :=
  ⟨⟨"SKP_Vx", 0xF0FF, 0xE09E, fun w => .skp (xField w)⟩, by simp [opcodeMap], by simp [OpRow.hits, encode, mask_low_byte], by simp [encode]⟩

theorem Laws.InOpcodeMap.sknp (x : Nibble) : Laws.InOpcodeMap.Statement (.sknp x) :=
  ⟨⟨"SKNP_Vx", 0xF0FF, 0xE0A1, fun w => .sknp (xField w)⟩, by simp [opcodeMap], by simp [OpRow.hits, encode, mask_low_byte], by simp [encode]⟩

theorem Laws.InOpcodeMap.ldVxDT (x : Nibble) : Laws.InOpcodeMap.Statement (.ldVxDT x) :=
  ⟨⟨"LD_Vx__DT", 0xF0FF, 0xF007, fun w => .ldVxDT (xField w)⟩, by simp [opcodeMap], by simp [OpRow.hits, encode, mask_low_byte], by simp [encode]⟩

theorem Laws.InOpcodeMap.ldVxK (x : Nibble) : Laws.InOpcodeMap.Statement (.ldVxK x) :=
  ⟨⟨"LD_Vx__K", 0xF0FF, 0xF00A, fun w => .ldVxK (xField w)⟩, by simp [opcodeMap], by simp [OpRow.hits, encode, mask_low_byte], by simp [encode]⟩

theorem Laws.InOpcodeMap.ldDTVx (x : Nibble) : Laws.InOpcodeMap.Statement (.ldDTVx x) :=
  ⟨⟨"LD_DT__Vx", 0xF0FF, 0xF015, fun w => .ldDTVx (xField w)⟩, by simp [opcodeMap], by simp [OpRow.hits, encode, mask_low_byte], by simp [encode]⟩

theorem Laws.InOpcodeMap.ldSTVx (x : Nibble) : Laws.InOpcodeMap.Statement (.ldSTVx x) :=
  ⟨⟨"LD_ST__Vx", 0xF0FF, 0xF018, fun w => .ldSTVx (xField w)⟩, by simp [opcodeMap], by simp [OpRow.hits, encode, mask_low_byte], by simp [encode]⟩

theorem Laws.InOpcodeMap.addI (x : Nibble) : Laws.InOpcodeMap.Statement (.addI x) :=
  ⟨⟨"ADD_I__Vx", 0xF0FF, 0xF01E, fun w => .addI (xField w)⟩, by simp [opcodeMap], by simp [OpRow.hits, encode, mask_low_byte], by simp [encode]⟩

theorem Laws.InOpcodeMap.ldF (x : Nibble) : Laws.InOpcodeMap.Statement (.ldF x) :=
  ⟨⟨"LD_F__Vx", 0xF0FF, 0xF029, fun w => .ldF (xField w)⟩, by simp [opcodeMap], by simp [OpRow.hits, encode, mask_low_byte], by simp [encode]⟩

theorem Laws.InOpcodeMap.ldB (x : Nibble) : Laws.InOpcodeMap.Statement (.ldB x) :=
  ⟨⟨"LD_B__Vx", 0xF0FF, 0xF033, fun w => .ldB (xField w)⟩, by simp [opcodeMap], by simp [OpRow.hits, encode, mask_low_byte], by simp [encode]⟩

theorem Laws.InOpcodeMap.ldMemVx (x : Nibble) : Laws.InOpcodeMap.Statement (.ldMemVx x) :=
  ⟨⟨"LD__I___Vx", 0xF0FF, 0xF055, fun w => .ldMemVx (xField w)⟩, by simp [opcodeMap], by simp [OpRow.hits, encode, mask_low_byte], by simp [encode]⟩

theorem Laws.InOpcodeMap.ldVxMem (x : Nibble) : Laws.InOpcodeMap.Statement (.ldVxMem x) :=
  ⟨⟨"LD_Vx___I", 0xF0FF, 0xF065, fun w => .ldVxMem (xField w)⟩, by simp [opcodeMap], by simp [OpRow.hits, encode, mask_low_byte], by simp [encode]⟩

end Sys2Proof
end

