-- ==== Sys2Proof/Tests/Slice0.lean ====
section
/-!
SUPPORT. Tests: words written out from the opcode map, the worked examples and vectors of 95_test_vectors.md, and for
each statement with hypotheses states and operands that meet them.
-/
namespace Sys2Proof.Tests

open Sys2Proof.Machine

/-! ## Well-formedness: the one check, and ill-formed terms that it refuses (R74, R111) -/

theorem test_wf_refuses_sys_0E0 : Instr.wf (.sys 0x0E0) = false := by decide

theorem test_wf_refuses_sys_0EE : Instr.wf (.sys 0x0EE) = false := by decide

theorem test_wf_accepts_sys_0E1 : Instr.wf (.sys 0x0E1) = true := by decide

/-! ## Decoding: one word of each row, written out from its pattern (R75) -/

theorem test_decode_cls : decode 0x00E0 = .ok .cls ∧ encode .cls = 0x00E0 := by decide

theorem test_decode_ret : decode 0x00EE = .ok .ret ∧ encode .ret = 0x00EE := by decide

theorem test_decode_sys : decode 0x0123 = .ok (.sys 0x123) ∧ encode (.sys 0x123) = 0x0123 := by decide

theorem test_decode_jp : decode 0x1ABC = .ok (.jp 0xABC) ∧ encode (.jp 0xABC) = 0x1ABC := by decide

theorem test_decode_call : decode 0x2300 = .ok (.call 0x300) ∧ encode (.call 0x300) = 0x2300 := by decide

theorem test_decode_seImm : decode 0x3310 = .ok (.seImm 3 0x10) ∧ encode (.seImm 3 0x10) = 0x3310 := by decide

theorem test_decode_sneImm : decode 0x4311 = .ok (.sneImm 3 0x11) ∧ encode (.sneImm 3 0x11) = 0x4311 := by decide

theorem test_decode_seReg : decode 0x5120 = .ok (.seReg 1 2) ∧ encode (.seReg 1 2) = 0x5120 := by decide

theorem test_decode_ldImm : decode 0x6A42 = .ok (.ldImm 0xA 0x42) ∧ encode (.ldImm 0xA 0x42) = 0x6A42 := by decide

theorem test_decode_addImm : decode 0x7002 = .ok (.addImm 0 0x02) ∧ encode (.addImm 0 0x02) = 0x7002 := by decide

theorem test_decode_ldReg : decode 0x8120 = .ok (.ldReg 1 2) ∧ encode (.ldReg 1 2) = 0x8120 := by decide

theorem test_decode_orReg : decode 0x8121 = .ok (.orReg 1 2) ∧ encode (.orReg 1 2) = 0x8121 := by decide

theorem test_decode_andReg : decode 0x8122 = .ok (.andReg 1 2) ∧ encode (.andReg 1 2) = 0x8122 := by decide

theorem test_decode_xorReg : decode 0x8123 = .ok (.xorReg 1 2) ∧ encode (.xorReg 1 2) = 0x8123 := by decide

theorem test_decode_addReg : decode 0x8124 = .ok (.addReg 1 2) ∧ encode (.addReg 1 2) = 0x8124 := by decide

theorem test_decode_subReg : decode 0x8125 = .ok (.subReg 1 2) ∧ encode (.subReg 1 2) = 0x8125 := by decide

theorem test_decode_shrReg : decode 0x8126 = .ok (.shrReg 1 2) ∧ encode (.shrReg 1 2) = 0x8126 := by decide

theorem test_decode_subnReg : decode 0x8127 = .ok (.subnReg 1 2) ∧ encode (.subnReg 1 2) = 0x8127 := by decide

theorem test_decode_shlReg : decode 0x812E = .ok (.shlReg 1 2) ∧ encode (.shlReg 1 2) = 0x812E := by decide

theorem test_decode_sneReg : decode 0x9120 = .ok (.sneReg 1 2) ∧ encode (.sneReg 1 2) = 0x9120 := by decide

theorem test_decode_ldI : decode 0xA123 = .ok (.ldI 0x123) ∧ encode (.ldI 0x123) = 0xA123 := by decide

theorem test_decode_jpV0 : decode 0xB300 = .ok (.jpV0 0x300) ∧ encode (.jpV0 0x300) = 0xB300 := by decide

theorem test_decode_rnd : decode 0xC10F = .ok (.rnd 1 0x0F) ∧ encode (.rnd 1 0x0F) = 0xC10F := by decide

theorem test_decode_drw : decode 0xD01F = .ok (.drw 0 1 0xF) ∧ encode (.drw 0 1 0xF) = 0xD01F := by decide

theorem test_decode_skp : decode 0xE19E = .ok (.skp 1) ∧ encode (.skp 1) = 0xE19E := by decide

theorem test_decode_sknp : decode 0xE1A1 = .ok (.sknp 1) ∧ encode (.sknp 1) = 0xE1A1 := by decide

theorem test_decode_ldVxDT : decode 0xF307 = .ok (.ldVxDT 3) ∧ encode (.ldVxDT 3) = 0xF307 := by decide

theorem test_decode_ldVxK : decode 0xF10A = .ok (.ldVxK 1) ∧ encode (.ldVxK 1) = 0xF10A := by decide

theorem test_decode_ldDTVx : decode 0xF115 = .ok (.ldDTVx 1) ∧ encode (.ldDTVx 1) = 0xF115 := by decide

theorem test_decode_ldSTVx : decode 0xF118 = .ok (.ldSTVx 1) ∧ encode (.ldSTVx 1) = 0xF118 := by decide

theorem test_decode_addI : decode 0xF11E = .ok (.addI 1) ∧ encode (.addI 1) = 0xF11E := by decide

theorem test_decode_ldF : decode 0xF129 = .ok (.ldF 1) ∧ encode (.ldF 1) = 0xF129 := by decide

theorem test_decode_ldB : decode 0xF133 = .ok (.ldB 1) ∧ encode (.ldB 1) = 0xF133 := by decide

theorem test_decode_ldMemVx : decode 0xF255 = .ok (.ldMemVx 2) ∧ encode (.ldMemVx 2) = 0xF255 := by decide

theorem test_decode_ldVxMem : decode 0xF265 = .ok (.ldVxMem 2) ∧ encode (.ldVxMem 2) = 0xF265 := by decide

/-! ## Words that are no instruction (R76; vectors FD3 to FD7, CF21) -/

theorem test_decode_rejects_5121 : decode 0x5121 = .error (.invalidOpcode 0x5121) := by decide

theorem test_decode_rejects_8128 : decode 0x8128 = .error (.invalidOpcode 0x8128) := by decide

theorem test_decode_rejects_812F : decode 0x812F = .error (.invalidOpcode 0x812F) := by decide

theorem test_decode_rejects_9121 : decode 0x9121 = .error (.invalidOpcode 0x9121) := by decide

theorem test_decode_rejects_E1A0 : decode 0xE1A0 = .error (.invalidOpcode 0xE1A0) := by decide

theorem test_decode_rejects_F1FF : decode 0xF1FF = .error (.invalidOpcode 0xF1FF) := by decide

theorem test_decode_bytes_big_endian : decodeBytes [0x12, 0x01, 0xFF] = .ok (.jp 0x201, [0xFF]) := by decide

theorem test_decode_bytes_truncated : decodeBytes [0x12] = .error .truncated := by decide

theorem test_decode_table_word : decodeTableWord 16 0xD01F = some (.drw 0 1 0xF) := by decide

/-! ## Helpers: a state, a word placed at its PC, one step -/

/-- The step completed and its next state passes a check. -/
def ran (r : Result) (p : State → Bool) : Bool :=
  match r with
  | .next t => p t
  | _ => false

/-- The step raised this fault. -/
def faulted (r : Result) (k : Fault) : Bool :=
  match r with
  | .fault k' => k' == k
  | _ => false

/-- One step from a state whose next instruction word is `w`. -/
def run (s : State) (w : Nat) : Result := step (s.withFetchWord 16 w)

/-- Reset with some registers set. -/
def regs (l : List (Nibble × Byte)) : State := l.foldl (fun s e => s.setV e.1 e.2) State.reset

/-- The pixels that are set in a window of a framebuffer: columns `xs`, rows `ys`. -/
def onPixels (f : Frame) (xs ys : List Nat) : List (Nat × Nat) :=
  xs.flatMap (fun x => (ys.filter (fun y => pixel f x y)).map (fun y => (x, y)))

/-! ## One step of each instruction -/

/-- DR12, FD1. -/
theorem test_cls_clears_and_sets_dirty :
    ran (run ({ State.reset with FB := setPixel blankFrame 7 0 true }) 0x00E0) (fun t => !pixel t.FB 7 0 && t.dirty && t.PC == 0x202) = true := by
  decide

/-- CF9. -/
theorem test_ret_pops :
    ran (run ((State.reset.setStack [0x111, 0x202]).setPC 0x300) 0x00EE) (fun t => t.PC == 0x202 && t.stack == [0x111]) = true := by
  decide

/-- CF10. -/
theorem test_ret_underflow :
    faulted (run (State.reset) 0x00EE) (.stackUnderflow) = true := by
  decide

/-- FD2. -/
theorem test_sys_jumps :
    ran (run (State.reset) 0x00E1) (fun t => t.PC == 0x0E1 && t.stack == []) = true := by
  decide

/-- CF2. -/
theorem test_jp_odd_target :
    ran (run (State.reset) 0x1201) (fun t => t.PC == 0x201) = true := by
  decide

/-- CF7. -/
theorem test_call_pushes :
    ran (run (State.reset.setPC 0xFFE) 0x2123) (fun t => t.PC == 0x123 && t.stack == [0x1000]) = true := by
  decide

/-- CF8. -/
theorem test_call_overflow :
    faulted (run (State.reset.setStack (List.replicate 16 0x202)) 0x2300) (.stackOverflow) = true := by
  decide

/-- CF12. -/
theorem test_jpV0_not_masked :
    ran (run (regs [(0, 0xFF)]) 0xBFFF) (fun t => t.PC == 0x10FE) = true := by
  decide

/-- CF13. -/
theorem test_seImm_skips :
    ran (run (regs [(3, 0x10)]) 0x3310) (fun t => t.PC == 0x204) = true := by
  decide

/-- CF14. -/
theorem test_seImm_steps :
    ran (run (regs [(3, 0x10)]) 0x3311) (fun t => t.PC == 0x202) = true := by
  decide

/-- CF15. -/
theorem test_sneImm_skips :
    ran (run (regs [(3, 0x10)]) 0x4311) (fun t => t.PC == 0x204) = true := by
  decide

/-- CF16. -/
theorem test_sneImm_steps :
    ran (run (regs [(3, 0x10)]) 0x4310) (fun t => t.PC == 0x202) = true := by
  decide

/-- CF17. -/
theorem test_seReg_skips :
    ran (run (regs [(1, 4), (2, 4)]) 0x5120) (fun t => t.PC == 0x204) = true := by
  decide

/-- CF18. -/
theorem test_seReg_steps :
    ran (run (regs [(1, 4), (2, 5)]) 0x5120) (fun t => t.PC == 0x202) = true := by
  decide

/-- CF19. -/
theorem test_sneReg_skips :
    ran (run (regs [(1, 4), (2, 5)]) 0x9120) (fun t => t.PC == 0x204) = true := by
  decide

/-- CF20. -/
theorem test_sneReg_steps :
    ran (run (regs [(1, 4), (2, 4)]) 0x9120) (fun t => t.PC == 0x202) = true := by
  decide

/-- AL23. -/
theorem test_ldImm_flag_register :
    ran (run (State.reset) 0x6FAA) (fun t => t.readV 0xF == 0xAA && t.PC == 0x202) = true := by
  decide

/-- AL17. -/
theorem test_addImm_wraps_without_flag :
    ran (run (regs [(0, 0xFF), (0xF, 0x55)]) 0x7002) (fun t => t.readV 0 == 0x01 && t.readV 0xF == 0x55) = true := by
  decide

/-- AL16. -/
theorem test_addImm_flag_register :
    ran (run (regs [(0xF, 0xFF)]) 0x7F01) (fun t => t.readV 0xF == 0x00) = true := by
  decide

/-- AL22. -/
theorem test_ldReg_copies :
    ran (run (regs [(2, 0x42)]) 0x8120) (fun t => t.readV 1 == 0x42 && t.readV 2 == 0x42) = true := by
  decide

/-- AL18. -/
theorem test_orReg :
    ran (run (regs [(1, 0xF0), (2, 0x0F), (0xF, 7)]) 0x8121) (fun t => t.readV 1 == 0xFF && t.readV 0xF == 7) = true := by
  decide

/-- AL19. -/
theorem test_andReg :
    ran (run (regs [(1, 0xF0), (2, 0x3C)]) 0x8122) (fun t => t.readV 1 == 0x30) = true := by
  decide

/-- AL20. -/
theorem test_xorReg :
    ran (run (regs [(1, 0xF0), (2, 0x3C)]) 0x8123) (fun t => t.readV 1 == 0xCC) = true := by
  decide

/-- AL21. -/
theorem test_xorReg_same :
    ran (run (regs [(1, 0xF0)]) 0x8113) (fun t => t.readV 1 == 0) = true := by
  decide

/-- AL3. -/
theorem test_addReg_flag_wins :
    ran (run (regs [(0xF, 0xFF), (1, 1)]) 0x8F14) (fun t => t.readV 0xF == 1) = true := by
  decide

/-- AL4. -/
theorem test_addReg_flag_is_operand :
    ran (run (regs [(0xF, 0x20), (1, 0x10)]) 0x81F4) (fun t => t.readV 1 == 0x30 && t.readV 0xF == 0) = true := by
  decide

/-- AL6. -/
theorem test_subReg_borrow :
    ran (run (regs [(1, 3), (2, 5)]) 0x8125) (fun t => t.readV 1 == 0xFE && t.readV 0xF == 0) = true := by
  decide

/-- AL7. -/
theorem test_subReg_equal :
    ran (run (regs [(1, 7), (2, 7)]) 0x8125) (fun t => t.readV 1 == 0 && t.readV 0xF == 1) = true := by
  decide

/-- AL9. -/
theorem test_shrReg_shifts_vy :
    ran (run (regs [(1, 0xAA), (2, 5)]) 0x8126) (fun t => t.readV 1 == 2 && t.readV 0xF == 1 && t.readV 2 == 5) = true := by
  decide

/-- AL10. -/
theorem test_shrReg_flag_wins :
    ran (run (regs [(2, 2)]) 0x8F26) (fun t => t.readV 0xF == 0) = true := by
  decide

/-- AL11. -/
theorem test_subnReg :
    ran (run (regs [(1, 3), (2, 5)]) 0x8127) (fun t => t.readV 1 == 2 && t.readV 0xF == 1) = true := by
  decide

/-- AL12. -/
theorem test_subnReg_borrow :
    ran (run (regs [(1, 5), (2, 3)]) 0x8127) (fun t => t.readV 1 == 0xFE && t.readV 0xF == 0) = true := by
  decide

/-- AL13. -/
theorem test_shlReg :
    ran (run (regs [(2, 0x81)]) 0x812E) (fun t => t.readV 1 == 2 && t.readV 0xF == 1 && t.readV 2 == 0x81) = true := by
  decide

/-- AL14. -/
theorem test_shlReg_flag_wins :
    ran (run (regs [(2, 1)]) 0x8F2E) (fun t => t.readV 0xF == 0) = true := by
  decide

/-- AL25. -/
theorem test_rnd_masks_the_draw :
    ran (rndWith 0xAB 1 0x0F State.reset) (fun t => t.readV 1 == 0x0B && t.draws == 1) = true := by
  decide

/-- AL24. -/
theorem test_rnd_of_mask_0_counts_a_draw :
    ran (run (State.reset) 0xC100) (fun t => t.draws == 1 && t.PC == 0x202) = true := by
  decide

/-- IM1. -/
theorem test_ldI :
    ran (run (State.reset) 0xA123) (fun t => t.I == 0x123) = true := by
  decide

/-- IM2. -/
theorem test_addI_saturates :
    ran (run ((regs [(1, 0x20)]).setI 0xFFF0) 0xF11E) (fun t => t.I == 0xFFFF) = true := by
  decide

/-- IM4. -/
theorem test_addI_above_memory_no_flag :
    ran (run ((regs [(1, 0xFF), (0xF, 9)]).setI 0x0FFF) 0xF11E) (fun t => t.I == 0x10FE && t.readV 0xF == 9) = true := by
  decide

/-- IM5. -/
theorem test_ldF_glyph_A :
    ran (run (regs [(1, 0x0A)]) 0xF129) (fun t => t.I == 0x082) = true := by
  decide

/-- IM7. -/
theorem test_ldF_not_masked :
    ran (run (regs [(1, 0xFF)]) 0xF129) (fun t => t.I == 0x54B) = true := by
  decide

/-- IM12, S8. -/
theorem test_ldB_at_the_top :
    ran (run ((regs [(1, 234)]).setI 0xFFD) 0xF133) (fun t => memReadBytes t.mem 0xFFD 3 == [2, 3, 4] && t.I == 0xFFD) = true := by
  decide

/-- IM13. -/
theorem test_ldB_overflow :
    faulted (run ((regs [(1, 1)]).setI 0xFFE) 0xF133) (.addressOverflow) = true := by
  decide

/-- 43_index_memory.md, example of R174. -/
theorem test_ldMemVx :
    ran (run ((regs [(0, 1), (1, 2), (2, 3)]).setI 0x300) 0xF255) (fun t => memReadBytes t.mem 0x300 4 == [1, 2, 3, 0] && t.I == 0x303) = true := by
  decide

/-- IM16. -/
theorem test_ldMemVx_overflow :
    faulted (run (State.reset.setI 0xFF1) 0xFF55) (.addressOverflow) = true := by
  decide

/-- IM17. -/
theorem test_ldVxMem :
    ran (run (((State.reset.storeBytes 0x300 [1, 2, 3, 4]).setI 0x300).setV 3 9) 0xF265) (fun t => t.readV 0 == 1 && t.readV 1 == 2 && t.readV 2 == 3 && t.readV 3 == 9 && t.I == 0x303) = true := by
  decide

/-- IM19. -/
theorem test_ldVxMem_overflow :
    faulted (run (State.reset.setI 0x1000) 0xF165) (.addressOverflow) = true := by
  decide

/-- DR9. -/
theorem test_drw_clips_at_the_right_edge :
    ran (run (((regs [(0, 60), (1, 5)]).setI 0x300).storeBytes 0x300 [0xFF]) 0xD011) (fun t => onPixels t.FB [0, 1, 59, 60, 61, 62, 63] [4, 5, 6] == [(60, 5), (61, 5), (62, 5), (63, 5)] && t.readV 0xF == 0 && t.dirty) = true := by
  decide

/-- DR17. -/
theorem test_drw_collides :
    ran (run ((((State.reset.setI 0x300).storeBytes 0x300 [0xC0]).setFrame (setPixel blankFrame 0 0 true))) 0xD011) (fun t => onPixels t.FB [0, 1, 2] [0, 1] == [(1, 0)] && t.readV 0xF == 1) = true := by
  decide

/-- KY1. -/
theorem test_skp_pressed :
    ran (run ((regs [(1, 5)]).setKeyBit 5 true) 0xE19E) (fun t => t.PC == 0x204) = true := by
  decide

/-- KY5. -/
theorem test_skp_invalid_key :
    faulted (run (regs [(1, 16)]) 0xE19E) (.invalidKey 16) = true := by
  decide

/-- KY3. -/
theorem test_sknp_not_pressed :
    ran (run (regs [(1, 5)]) 0xE1A1) (fun t => t.PC == 0x204) = true := by
  decide

/-- KY6. -/
theorem test_sknp_invalid_key :
    faulted (run (regs [(1, 255)]) 0xE1A1) (.invalidKey 255) = true := by
  decide

/-- TM1. -/
theorem test_ldVxDT :
    ran (run (State.reset.setDT 0x3C) 0xF107) (fun t => t.readV 1 == 0x3C && t.DT == 0x3C) = true := by
  decide

/-- KY8. -/
theorem test_ldVxK_lowest_key :
    ran (run ((State.reset.setKeyBit 0xA true).setKeyBit 5 true) 0xF10A) (fun t => t.readV 1 == 5 && t.PC == 0x202 && t.wait == .idle && keyDown t 5) = true := by
  decide

/-- KY7. -/
theorem test_ldVxK_waits :
    ran (run (State.reset) 0xF10A) (fun t => t.PC == 0x200 && t.wait == .awaitingKey && t.readV 1 == 0) = true := by
  decide

/-- 45_timers.md, example of R211. -/
theorem test_ldDTVx :
    ran (run (regs [(1, 0x3C)]) 0xF115) (fun t => t.DT == 0x3C) = true := by
  decide

/-- 45_timers.md, example of R212. -/
theorem test_ldSTVx :
    ran (run (regs [(1, 5)]) 0xF118) (fun t => t.ST == 5 && toneEnabled t) = true := by
  decide

/-! ## The cycle, the host's moves, initialisation -/

/-- FD8: the last fetchable address pair. -/
theorem test_fetch_last_pair : ran (run (State.reset.setPC 0xFFE) 0x1200) (fun t => t.PC == 0x200) = true := by
  decide

/-- FD9. -/
theorem test_fetch_overflow : faulted (step (State.reset.setPC 0xFFF)) .addressOverflow = true := by decide

/-- FD3: PC stays, the fault is recorded with the whole word. -/
theorem test_invalid_opcode_recorded :
    (stepCall (State.reset.withFetchWord 16 0x5121)).1.fault = some (.invalidOpcode 0x5121) ∧
      (stepCall (State.reset.withFetchWord 16 0x5121)).1.PC = 0x200 := by
  decide

/-- FD12: zeroed memory holds a jump to 0x000. -/
theorem test_empty_memory_jumps_to_0 : ran (step State.reset) (fun t => t.PC == 0x000) = true := by decide

/-- TM4: the floors are independent. -/
theorem test_tick_floors :
    ran (tick ((State.reset.setDT 5).setST 0)) (fun t => t.DT == 4 && t.ST == 0) = true := by
  decide

/-- TM6: a faulted core does not tick. -/
theorem test_tick_faulted : (tickCall ((State.reset.setST 5).raise .stackOverflow)).1.ST = 5 := by decide

/-- DR11, with the font bytes that D8 recommends placed at 0x300: glyph 0 has 14 pixels. -/
theorem test_glyph_0_has_14_pixels :
    ran (run ((State.reset.setI 0x300).storeBytes 0x300 (Config.recommendedFont.take 5)) 0xD015)
      (fun t => (onPixels t.FB (List.range 9) (List.range 6)).length == 14) = true := by
  decide

/-- S10: the image of the end-to-end example, its first two words. -/
theorem test_boot_image :
    ran (boot [0x60, 0x05, 0x70, 0x03, 0x00, 0xE0])
      (fun s => wordAt s.mem 0x200 == 0x6005 && wordAt s.mem 0x204 == 0x00E0 && s.PC == 0x200) = true := by
  decide

/-- R246, R247 (FD11): the same fault again. -/
theorem test_faulted_step : faulted (step (State.reset.raise .stackOverflow)) .stackOverflow = true := by decide

/-- The host's run of one step of the core. -/
theorem test_core_run :
    ran (Host.Core.run Sys2Proof.core 1 (State.reset.withFetchWord 16 0x6A42)) (fun t => t.readV 0xA == 0x42) =
      true := by
  decide

/-! ## States and operands that meet the hypotheses of the statements

Each theorem names the statement, and meets all hypotheses of it (or of one clause of it) together, at a boundary
where the clause has one. -/

theorem witness_DecodeEncode : Instr.wf (.sys 0x0ED) = true := by decide

theorem witness_EncodeDecode : decode 0x0FFF = .ok (.sys 0xFFF) := by decide

theorem witness_DispatchSelectsRow :
    (OpRow.hits ⟨"CLS", 0xFFFF, 0x00E0, fun _ => .cls⟩ 0x00E0 = true) ∧
      OpRow.hits ⟨"SYS_nnn", 0xF000, 0x0000, fun w => .sys (addrField w)⟩ 0x00E0 = true := by
  decide

theorem witness_InvalidWordsRejected : InvalidWord 0xFF66 ∧ ¬InvalidWord 0xFF65 := by
  unfold InvalidWord
  decide

theorem witness_DecodeBytesTakesTwo : Instr.wf (.drw 0xF 0xF 0xF) = true := by decide

theorem witness_BootLoadsImage_fits : (List.replicate 3584 (0x12 : Byte)).length ≤ 3584 :=
  List.length_replicate.le

theorem witness_BootLoadsImage_too_long : 3584 < (List.replicate 3585 (0x12 : Byte)).length :=
  List.length_replicate.symm ▸ Nat.lt_succ_self 3584

theorem witness_ResetState_font : (0x050 ≤ 0x050 ∧ 0x050 ≤ 0x09F) ∧ 0x050 ≤ 0x09F ∧ 0x09F ≤ 0x09F := by decide

theorem witness_ResetState_zero :
    (0x04F ≤ 0xFFF ∧ (0x04F < 0x050 ∨ 0x09F < 0x04F)) ∧ (0xFFF ≤ 0xFFF ∧ (0xFFF < 0x050 ∨ 0x09F < 0xFFF)) := by decide

theorem witness_ResetState_pixel : 63 ≤ 63 ∧ 31 ≤ 31 := by decide

/-- A core whose next instruction is a CALL at the last fetchable address. -/
def atTop : State := (State.reset.setPC 0xFFE).withFetchWord 16 0x2123

theorem witness_StepRunsInstruction :
    atTop.fault = none ∧ atTop.PC.toNat + 1 ≤ 0xFFF ∧
      decode (memRead atTop.mem atTop.PC.toNat ++ memRead atTop.mem (atTop.PC.toNat + 1)) = .ok (.call 0x123) := by
  decide

theorem witness_FaultedCoreStays : (State.reset.raise .stackOverflow).fault = some .stackOverflow := by decide

theorem witness_FetchOverflow :
    (State.reset.setPC 0xFFF).fault = none ∧ 0xFFF < (State.reset.setPC 0xFFF).PC.toNat + 1 := by
  decide

/-- A core whose next word is no instruction. -/
def atInvalid : State := (State.reset.setPC 0xFFE).withFetchWord 16 0x812F

theorem witness_InvalidOpcodeRaised :
    atInvalid.fault = none ∧ atInvalid.PC.toNat + 1 ≤ 0xFFF ∧
      InvalidWord (memRead atInvalid.mem atInvalid.PC.toNat ++ memRead atInvalid.mem (atInvalid.PC.toNat + 1)) := by
  unfold InvalidWord
  decide

theorem witness_InvalidOpcodeRaised_only : step atInvalid = .fault (.invalidOpcode 0x812F) := by rfl

theorem witness_StepOutcome_completes : SafeStep atTop := ⟨_, rfl⟩

theorem witness_StepResult_completes : ∃ t, step atTop = .next t := ⟨_, rfl⟩

/-- A core whose next instruction is a FX0A at the last fetchable address, no key pressed. -/
def atKeyWait : State := (State.reset.setPC 0xFFE).withFetchWord 16 0xFF0A

theorem witness_StepResult_waits :
    atKeyWait.fault = none ∧ atKeyWait.PC.toNat + 1 ≤ 0xFFF ∧
      decode (memRead atKeyWait.mem atKeyWait.PC.toNat ++ memRead atKeyWait.mem (atKeyWait.PC.toNat + 1)) =
        .ok (.ldVxK 0xF) ∧
      ∀ k : Fin 16, keyDown atKeyWait k = false := by
  decide

theorem witness_FaultIsPreciseAndFinal :
    step (State.reset.withFetchWord 16 0x00EE) = .fault .stackUnderflow := by rfl

theorem witness_FaultsHaveCauses : ∀ k, ¬FaultCause (.ldMemVx 0xF) (State.reset.setI 0xFF0) k := by
  rintro k ⟨h, -⟩
  exact absurd h (by decide)

/-- A completed instruction, for every statement about next states. -/
theorem witness_PolicyOfRow_OnlyItsOwnWrites : ∃ t, exec (.call 0xFFF) State.reset = .next t := ⟨_, rfl⟩

theorem witness_FlagRegister_defines :
    DefinesFlag (.shlReg 0xF 0xF) ∧ ∃ t, exec (.shlReg 0xF 0xF) State.reset = .next t := ⟨trivial, _, rfl⟩

theorem witness_FlagRegister_other :
    (¬DefinesFlag (.ldVxMem 0xE) ∧ ¬NamesVF (.ldVxMem 0xE)) ∧
      ∃ t, exec (.ldVxMem 0xE) State.reset = .next t :=
  ⟨⟨id, by unfold NamesVF; decide⟩, _, rfl⟩

/-- A core that is awaiting a key at the FX0A at its PC, with a full call stack. -/
def awaiting : State :=
  { (State.reset.withFetchWord 16 0xF30A).setStack (List.replicate 16 0x1000) with wait := .awaitingKey }

theorem awaiting_wf : Memory.wf awaiting.mem :=
  wf_memWriteBytes wf_nil 0x200 [0xF3, 0x0A]

theorem awaiting_returns : ∀ a ∈ awaiting.stack, a.toNat ≤ 0x1000 := by
  intro a ha
  rw [List.eq_of_mem_replicate ha]
  decide

theorem awaiting_fetch : fetchInstr awaiting = .ok (.ldVxK 3) := by decide

theorem witness_StepKeepsInv_WaitingStep :
    Inv awaiting ∧ awaiting.fault = none ∧ awaiting.wait = .awaitingKey ∧
      (∀ k : Fin 16, keyDown awaiting k = false) ∧ ∃ t, step awaiting = .next t :=
  ⟨⟨awaiting_wf, by decide, awaiting_returns, by decide, fun _ => ⟨3, awaiting_fetch⟩⟩, by decide, by decide,
    by decide, _, step_eq_next.2 ⟨by decide, _, awaiting_fetch, rfl⟩⟩

theorem witness_MovesKeepInv : ∃ s, boot [0x12, 0x00] = .next s := ⟨_, rfl⟩

theorem witness_ReturnPops_empty : State.reset.stack = [] := by decide

theorem witness_ReturnPops_top : (State.reset.setStack [0x202]).stack = [] ++ [0x202] := by decide

theorem witness_JumpsSetPC : (0xFFF : Addr12) ≠ 0x0E0#12 ∧ (0xFFF : Addr12) ≠ 0x0EE#12 := by decide

theorem witness_CallPushes :
    (State.reset.setStack (List.replicate 15 0x202)).stack.length < 16 ∧
      (State.reset.setStack (List.replicate 16 0x202)).stack.length = 16 := by
  decide

theorem witness_CallThenReturn :
    ∃ t, exec (.call 0x300) (State.reset.setStack (List.replicate 15 0x202)) = .next t ∧ t.stack = t.stack :=
  ⟨_, rfl, rfl⟩

theorem witness_SkipImmediate : State.reset.readV 0xF = 0x00 ∧ State.reset.readV 0xF ≠ 0xFF := by decide

theorem witness_SkipRegister :
    (0xF : Nibble) ≠ 0x0#4 ∧ State.reset.readV 1 = State.reset.readV 0xF ∧
      (regs [(1, 4)]).readV 1 ≠ (regs [(1, 4)]).readV 0xF := by
  decide

/-- A core at a jump to itself at the last fetchable address. -/
def selfJump : State := (State.reset.setPC 0xFFE).withFetchWord 16 0x1FFE

theorem witness_SelfJumpLoops :
    selfJump.fault = none ∧ selfJump.PC.toNat = (0xFFE : Addr12).toNat ∧ (0xFFE : Addr12).toNat + 1 ≤ 0xFFF ∧
      memRead selfJump.mem selfJump.PC.toNat ++ memRead selfJump.mem (selfJump.PC.toNat + 1) =
        0x1#4 ++ (0xFFE : Addr12) := by
  decide

theorem witness_StoreDigits :
    (State.reset.setI 0xFFD).I.toNat + 2 ≤ 0xFFF ∧ 0xFFF < (State.reset.setI 0xFFE).I.toNat + 2 := by
  decide

theorem witness_StoreBlock_LoadBlock :
    (State.reset.setI 0xFF0).I.toNat + (0xF : Nibble).toNat ≤ 0xFFF ∧
      0xFFF < (State.reset.setI 0xFF1).I.toNat + (0xF : Nibble).toNat := by
  decide

theorem witness_StoreThenLoad :
    ∃ t u : State, exec (.ldMemVx 0xF) (State.reset.setI 0xFF0) = .next t ∧ u.mem = t.mem ∧
      u.I = (State.reset.setI 0xFF0).I :=
  ⟨_, State.setI _ 0xFF0, rfl, rfl, rfl⟩

theorem witness_StoredCodeRuns :
    ∃ t u : State, exec (.ldMemVx 1) ((regs [(0, 0x00), (1, 0xE0)]).setI 0x300) = .next t ∧ u.mem = t.mem ∧
      u.fault = none ∧ u.PC.toNat = ((regs [(0, 0x00), (1, 0xE0)]).setI 0x300).I.toNat + (0 : Nibble).toNat ∧
      decode ((regs [(0, 0x00), (1, 0xE0)]).readV 0 ++ (regs [(0, 0x00), (1, 0xE0)]).readV 1) = .ok .cls :=
  ⟨_, State.setPC _ 0x300, rfl, rfl, rfl, by decide, by decide⟩

theorem witness_ClearScreen : 63 ≤ 63 ∧ 31 ≤ 31 := by decide

/-- A core about to draw one row at the bottom right corner, where a pixel is set. -/
def atCorner : State :=
  (((regs [(0, 63), (1, 31)]).setI 0xFFF).storeBytes 0xFFF [0x80]).setFrame (setPixel blankFrame 63 31 true)

theorem witness_DrawSprite_drawn :
    ((1 : Nibble).toNat = 0 ∨ atCorner.I.toNat + (1 : Nibble).toNat - 1 ≤ 0xFFF) ∧ OnScreen atCorner 0 1 1 0 0 ∧
      pixel atCorner.FB ((atCorner.readV 0).toNat + 0) ((atCorner.readV 1).toNat + 0) = true ∧
      rowBit atCorner 0 0 = true := by
  unfold OnScreen
  decide

theorem witness_DrawSprite_nothing_drawn :
    (0 : Nibble).toNat = 0 ∧ ¬∃ r c, OnScreen (State.reset.setI 0xFFFF) 0 1 0 r c ∧
      pixel (State.reset.setI 0xFFFF).FB (((State.reset.setI 0xFFFF).readV 0).toNat + c)
        (((State.reset.setI 0xFFFF).readV 1).toNat + r) = true ∧ rowBit (State.reset.setI 0xFFFF) r c = true := by
  refine ⟨by decide, ?_⟩
  rintro ⟨r, c, ⟨h, -⟩, -⟩
  exact absurd h (by simp)

theorem witness_DrawSprite_overflow :
    0 < (2 : Nibble).toNat ∧ 0xFFF < atCorner.I.toNat + (2 : Nibble).toNat - 1 := by
  decide

theorem witness_DrawSetsDirty : ∃ t, exec (.drw 0 1 1) atCorner = .next t := ⟨_, rfl⟩

/-- A core whose next instruction draws past the end of memory. -/
def drawsPastEnd : State := (State.reset.setI 0xFFF).withFetchWord 16 0xD012

theorem witness_DrawSetsDirty_fault :
    fetchInstr drawsPastEnd = .ok (.drw 0 1 2) ∧ exec (.drw 0 1 2) drawsPastEnd = .fault .addressOverflow :=
  ⟨rfl, rfl⟩

theorem witness_DrawTwiceRestores :
    ∃ t u v : State, exec (.drw 0 1 1) atCorner = .next t ∧ u.FB = t.FB ∧ u.I = atCorner.I ∧ u.mem = atCorner.mem ∧
      u.readV 0 = atCorner.readV 0 ∧ u.readV 1 = atCorner.readV 1 ∧ exec (.drw 0 1 1) u = .next v :=
  ⟨_, _, _, rfl, rfl, rfl, rfl, by decide, by decide, rfl⟩

theorem witness_TimerInstructions_TimersCountDown : State.reset.fault = none := by decide

theorem witness_KeyTests :
    (regs [(1, 15)]).readV 1 = 15 ∧ ((regs [(1, 15)]).readV 1).toNat = (15 : Fin 16).val ∧
      keyDown ((regs [(1, 15)]).setKeyBit 15 true) 15 = true ∧ keyDown (regs [(1, 15)]) 15 = false ∧
      15 < ((regs [(1, 16)]).readV 1).toNat := by
  decide

theorem witness_KeyWait_pressed :
    keyDown (State.reset.setKeyBit 15 true) 15 = true ∧
      ∀ j : Fin 16, j < 15 → keyDown (State.reset.setKeyBit 15 true) j = false := by
  decide

theorem witness_KeyWait_none : ∀ k : Fin 16, keyDown State.reset k = false := by decide

theorem witness_HostMoves : (15 : Fin 16) ≠ 0 := by decide

end Sys2Proof.Tests
end

section
/-!
PROOFS. The encoding family (30_encoding.md): the fields of a word as numbers, and the word rebuilt from them.
-/
namespace Sys2Proof

/-! ## The fields as digits of the word's number (R71) -/

/-- A field of `len` bits from bit `lo` up is one digit of the word's number, in powers of two. -/
theorem toNat_extractLsb'_eq_div_mod (w : Word) (lo len : Nat) :
    (w.extractLsb' lo len).toNat = w.toNat / 2 ^ lo % 2 ^ len := by
  rw [BitVec.extractLsb'_toNat, Nat.shiftRight_eq_div_pow]

/-- A field that begins at bit 0 is the last digit. -/
theorem toNat_extractLsb'_zero_eq_mod (w : Word) (len : Nat) :
    (w.extractLsb' 0 len).toNat = w.toNat % 2 ^ len := by
  rw [toNat_extractLsb'_eq_div_mod, Nat.pow_zero, Nat.div_one]

theorem opField_toNat (w : Word) : (opField w).toNat = w.toNat / 0x1000 := by
  have hfits : w.toNat / 0x1000 < 2 ^ 4 := by omega
  exact (toNat_extractLsb'_eq_div_mod w 12 4).trans (Nat.mod_eq_of_lt hfits)

theorem xField_toNat (w : Word) : (xField w).toNat = w.toNat / 0x100 % 0x10 :=
  toNat_extractLsb'_eq_div_mod w 8 4

theorem yField_toNat (w : Word) : (yField w).toNat = w.toNat / 0x10 % 0x10 :=
  toNat_extractLsb'_eq_div_mod w 4 4

theorem nField_toNat (w : Word) : (nField w).toNat = w.toNat % 0x10 :=
  toNat_extractLsb'_zero_eq_mod w 4

theorem addrField_toNat (w : Word) : (addrField w).toNat = w.toNat % 0x1000 :=
  toNat_extractLsb'_zero_eq_mod w 12

theorem byteField_toNat (w : Word) : (byteField w).toNat = w.toNat % 0x100 :=
  toNat_extractLsb'_zero_eq_mod w 8

/-! ## Numbers from their hexadecimal digits (R73) -/

theorem byteField_toNat_eq_digits (w : Word) :
    (byteField w).toNat = (yField w).toNat * 0x10 + (nField w).toNat := by
  rw [byteField_toNat, yField_toNat, nField_toNat]
  omega

theorem addrField_toNat_eq_digits (w : Word) :
    (addrField w).toNat = (xField w).toNat * 0x100 + (yField w).toNat * 0x10 + (nField w).toNat := by
  rw [addrField_toNat, xField_toNat, yField_toNat, nField_toNat]
  omega

theorem toNat_eq_digits (w : Word) :
    w.toNat = (opField w).toNat * 0x1000 + (xField w).toNat * 0x100 + (yField w).toNat * 0x10 +
      (nField w).toNat := by
  rw [opField_toNat, xField_toNat, yField_toNat, nField_toNat]
  omega

/-- Settles O1: each field is one digit, or the last two or three, of the word's number in base sixteen. -/
theorem fieldsRebuildWord : Obligations.FieldsRebuildWord := fun w =>
  ⟨toNat_eq_digits w, addrField_toNat_eq_digits w, byteField_toNat_eq_digits w⟩

end Sys2Proof
end

section
/-!
PROOFS. The control-flow family (41_control_flow.md): what the setters of control flow leave unchanged, and what the
return, the call and the conditional skips make of a state.
-/
namespace Sys2Proof

/-! ## The words of the family (R75) -/

theorem decode_call (nnn : Addr12) : decode (0x2#4 ++ nnn) = .ok (.call nnn) := by
  simp [decode]

theorem decode_seImm (x : Nibble) (kk : Byte) : decode (0x3#4 ++ x ++ kk) = .ok (.seImm x kk) := by
  simp [decode]

theorem decode_sneImm (x : Nibble) (kk : Byte) : decode (0x4#4 ++ x ++ kk) = .ok (.sneImm x kk) := by
  simp [decode]

end Sys2Proof

namespace Sys2Proof.Machine

/-! ## Frames: a setter changes the piece it sets, and frames compose -/

theorem OnlyChanges.trans {ps : List Piece} {s t u : State} (hst : OnlyChanges ps s t) (htu : OnlyChanges ps t u) :
    OnlyChanges ps s u := by
  intro p hp
  have first := hst p hp
  have second := htu p hp
  cases p
  case V | mem | key => exact fun a => (second a).trans (first a)
  case FB => exact fun px py => (second px py).trans (first px py)
  all_goals exact second.trans first

theorem onlyChanges_setPC {ps : List Piece} (hps : .PC ∈ ps) (s : State) (pc : Word) :
    OnlyChanges ps s (s.setPC pc) := by
  intro p hp
  cases p
  case PC => exact absurd hps hp
  all_goals simp [Piece.same]

theorem onlyChanges_setStack {ps : List Piece} (hps : .stack ∈ ps) (s : State) (vs : List Word) :
    OnlyChanges ps s (s.setStack vs) := by
  intro p hp
  cases p
  case stack => exact absurd hps hp
  all_goals simp [Piece.same]

/-- Policy Keep changes nothing (R94). -/
@[simp] theorem State.advance_keep (s : State) : s.advance .keep = s := rfl

theorem onlyChanges_advance {ps : List Piece} (hps : .PC ∈ ps) (s : State) (p : PcPolicy) :
    OnlyChanges ps s (s.advance p) :=
  onlyChanges_setPC hps s (pcAfter p s.PC)

theorem onlyChanges_setStack_setPC (s : State) (vs : List Word) (pc : Word) :
    OnlyChanges [.PC, .stack] s ((s.setStack vs).setPC pc) :=
  (onlyChanges_setStack (by simp) s vs).trans (onlyChanges_setPC (by simp) _ pc)

/-! ## 00EE and 2NNN (R110, R113) -/

theorem exec_ret_of_empty {s : State} (h : s.stack = []) : exec .ret s = .fault .stackUnderflow := by
  rw [exec, execRet, h]
  rfl

theorem exec_ret_of_top {s : State} {rest : List Word} {top : Word} (h : s.stack = rest ++ [top]) :
    exec .ret s = .next ((s.setStack rest).setPC top) := by
  rw [exec, execRet_eq_next]
  exact ⟨top, by simp [h], by simp [h]⟩

theorem exec_call_of_room (nnn : Addr12) {s : State} (h : s.stack.length < 16) :
    exec (.call nnn) s = .next ((s.setStack (s.stack ++ [s.PC + 2])).setPC (addr16 nnn)) :=
  execCall_eq_next.2 ⟨h, State.advance_keep _⟩

theorem exec_call_of_full (nnn : Addr12) {s : State} (h : 16 ≤ s.stack.length) :
    exec (.call nnn) s = .fault .stackOverflow := by
  rw [exec, execCall]
  exact if_neg (Nat.not_lt.2 h)

/-- Settles O25: the empty stack faults; otherwise the stack's last element is what the return pops. -/
theorem returnPops : Obligations.ReturnPops := by
  refine ⟨rfl, fun s => ⟨exec_ret_of_empty, fun rest top h => ?_⟩⟩
  exact ⟨_, exec_ret_of_top h, rfl, rfl, onlyChanges_setStack_setPC s rest top⟩

/-- Settles O27: below 16 entries the call pushes and jumps, at 16 it faults. -/
theorem callPushes : Obligations.CallPushes := by
  refine fun nnn s => ⟨decode_call nnn, fun room => ?_, fun full => exec_call_of_full nnn full.ge⟩
  exact ⟨_, exec_call_of_room nnn room, addr16_toNat nnn, rfl, onlyChanges_setStack_setPC s _ _⟩

/-! ## Conditional skips (R94, R115, R116) -/

/-- A conditional skip changes only PC: by 4 when what its test says holds, else by 2. -/
theorem skipIf_spec {c : Bool} {P : Prop} (hc : c = true ↔ P) (s : State) :
    ∃ t, skipIf c s = .next t ∧ OnlyChanges [.PC] s t ∧ (P → t.PC = s.PC + 4) ∧ (¬P → t.PC = s.PC + 2) := by
  refine ⟨_, skipIf_eq c s, onlyChanges_advance (by simp) s _, fun holds => ?_, fun fails => ?_⟩
  · rw [hc.2 holds]
    rfl
  · rw [Bool.eq_false_iff.2 (mt hc.1 fails)]
    rfl

/-- Settles O30: both are one conditional skip, on equality and on its negation. -/
theorem skipImmediate : Obligations.SkipImmediate := by
  intro x kk s
  have onEqual := skipIf_spec (c := s.readV x == kk) beq_iff_eq s
  have onDiffer := skipIf_spec (c := s.readV x != kk) bne_iff_ne s
  rw [not_ne_iff] at onDiffer
  exact ⟨decode_seImm x kk, decode_sneImm x kk, onEqual, onDiffer⟩

end Sys2Proof.Machine
end

section
/-!
PROOFS. The register loads of the arithmetic family (42_alu.md section 2): what a result written to one register,
with no flag, makes of a state.
-/
namespace Sys2Proof

/-! ## The words of the family (R75) -/

theorem decode_ldImm (x : Nibble) (kk : Byte) : decode (0x6#4 ++ x ++ kk) = .ok (.ldImm x kk) := by
  simp [decode]

theorem decode_ldReg (x y : Nibble) : decode (0x8#4 ++ x ++ y ++ 0x0#4) = .ok (.ldReg x y) := by
  simp [decode, decodeGroup8]

end Sys2Proof

namespace Sys2Proof.Machine

/-! ## One register written, with no flag (R22, R94) -/

theorem onlyChanges_setV {ps : List Piece} (hps : .V ∈ ps) (s : State) (x : Nibble) (v : Byte) :
    OnlyChanges ps s (s.setV x v) := by
  intro p hp
  cases p
  case V => exact absurd hps hp
  all_goals simp [Piece.same]

theorem regsKeptBut_setV (s : State) (x : Nibble) (v : Byte) : RegsKeptBut x s (s.setV x v) := by
  intro j hj
  rw [State.setV_readV, if_neg hj]

/-- The result is what Vx then holds, x = F included; no other register changes, and PC moves on by 2. -/
theorem writeResult_spec (x : Nibble) (r : Byte) (s : State) :
    ∃ t, writeResult x r s = .next t ∧ t.readV x = r ∧ RegsKeptBut x s t ∧ t.PC = s.PC + 2 ∧
      OnlyChanges [.V, .PC] s t := by
  refine ⟨(s.setV x r).advance .step, rfl, ?_, regsKeptBut_setV s x r, rfl, ?_⟩
  · rw [State.advance_readV, State.setV_readV, if_pos rfl]
  · exact (onlyChanges_setV (by simp) s x r).trans (onlyChanges_advance (by simp) _ .step)

/-- Settles O33: the load is KK written to Vx. -/
theorem loadImmediate : Obligations.LoadImmediate := fun x kk s =>
  ⟨decode_ldImm x kk, writeResult_spec x kk s⟩

/-- Settles O35: the copy is the value of Vy before the step written to Vx. -/
theorem copyRegister : Obligations.CopyRegister := fun x y s =>
  ⟨decode_ldReg x y, writeResult_spec x (s.readV y) s⟩

end Sys2Proof.Machine
end

section
/-!
PROOFS. The index and memory family (43_index_memory.md): the load of I, and the transfers between registers and the
memory that I points at.
-/
namespace Sys2Proof

/-! ## The words of the family (R75) -/

theorem decode_ldI (nnn : Addr12) : decode (0xA#4 ++ nnn) = .ok (.ldI nnn) := by
  simp [decode]

theorem decode_ldB (x : Nibble) : decode (0xF#4 ++ x ++ 0x33#8) = .ok (.ldB x) := by
  simp [decode, decodeGroupF]

theorem decode_ldMemVx (x : Nibble) : decode (0xF#4 ++ x ++ 0x55#8) = .ok (.ldMemVx x) := by
  simp [decode, decodeGroupF]

theorem decode_ldVxMem (x : Nibble) : decode (0xF#4 ++ x ++ 0x65#8) = .ok (.ldVxMem x) := by
  simp [decode, decodeGroupF]

end Sys2Proof

namespace Sys2Proof.Machine

/-! ## Frames of the setters of the family -/

theorem onlyChanges_setI {ps : List Piece} (hps : .I ∈ ps) (s : State) (v : Word) : OnlyChanges ps s (s.setI v) := by
  intro p hp
  cases p
  case I => exact absurd hps hp
  all_goals simp [Piece.same]

theorem onlyChanges_storeBytes {ps : List Piece} (hps : .mem ∈ ps) (s : State) (a : Nat) (vs : List Byte) :
    OnlyChanges ps s (s.storeBytes a vs) := by
  intro p hp
  cases p
  case mem => exact absurd hps hp
  all_goals simp [Piece.same]

theorem onlyChanges_setAllV {ps : List Piece} (hps : .V ∈ ps) (s : State) (vs : Vector Byte 16) :
    OnlyChanges ps s (s.setAllV vs) := by
  intro p hp
  cases p
  case V => exact absurd hps hp
  all_goals simp [Piece.same]

theorem onlyChanges_setI_step {ps : List Piece} (hI : .I ∈ ps) (hPC : .PC ∈ ps) (s : State) (v : Word) :
    OnlyChanges ps s ((s.setI v).advance .step) :=
  (onlyChanges_setI hI s v).trans (onlyChanges_advance hPC _ .step)

theorem bytesKeptBut_storeBytes {n : Nat} {vs : List Byte} (hn : vs.length = n) (s : State) (a : Nat) :
    BytesKeptBut a n s (s.storeBytes a vs) := by
  intro b outside
  rw [← hn] at outside
  exact memRead_memWriteBytes_outside s.mem a b vs outside

/-! ## I loaded with a value (R170) -/

theorem writeIndex_spec (v : Word) (s : State) :
    ∃ t, writeIndex v s = .next t ∧ t.I = v ∧ t.PC = s.PC + 2 ∧ OnlyChanges [.I, .PC] s t :=
  ⟨(s.setI v).advance .step, rfl, rfl, rfl, onlyChanges_setI_step (by simp) (by simp) s v⟩

/-- Settles O43: the value written to I is NNN with a high nibble of 0. -/
theorem loadIndex : Obligations.LoadIndex := by
  intro nnn s
  obtain ⟨t, next, index, pc, frame⟩ := writeIndex_spec (addr16 nnn) s
  exact ⟨decode_ldI nnn, t, next, by rw [index, addr16_toNat], pc, frame⟩

/-! ## FX33 (R173) -/

theorem exec_ldB_of_room (x : Nibble) {s : State} (room : s.I.toNat + 2 ≤ 0xFFF) :
    exec (.ldB x) s = .next ((s.storeBytes s.I.toNat (bcdDigits (s.readV x))).advance .step) :=
  execLdB_eq_next.2 ⟨room, rfl⟩

theorem exec_ldB_of_overflow (x : Nibble) {s : State} (past : 0xFFF < s.I.toNat + 2) :
    exec (.ldB x) s = .fault .addressOverflow :=
  checkSpan_fail (mt digitSpan_iff.1 past.not_ge) _

theorem bcdDigits_length (v : Byte) : (bcdDigits v).length = 3 := rfl

/-- Where the three digits of a byte have been stored, each is read back as a number. -/
theorem memRead_storeBytes_bcdDigits {a k : Nat} (s : State) (v : Byte) (room : a + 2 ≤ 0xFFF) (hk : k < 3) :
    (memRead (s.storeBytes a (bcdDigits v)).mem (a + k)).toNat =
      [v.toNat / 100, v.toNat / 10 % 10, v.toNat % 10][k] := by
  have inside : a + (bcdDigits v).length ≤ Config.memSize := by
    rw [bcdDigits_length, Config.memSize]
    omega
  rw [State.storeBytes_mem, memRead_memWriteBytes_inside s.mem a k (bcdDigits v) hk inside]
  exact (List.getElem_map BitVec.toNat).symm.trans (List.getElem_of_eq (bcdDigits_toNat v) hk)

/-- Settles O46: with room for three bytes they are the digits in order, without it the span check faults. -/
theorem storeDigits : Obligations.StoreDigits := by
  refine fun x s => ⟨decode_ldB x, fun room => ?_, exec_ldB_of_overflow x⟩
  have digit (k : Nat) (hk : k < 3) := memRead_storeBytes_bcdDigits s (s.readV x) room hk
  refine ⟨_, exec_ldB_of_room x room, digit 0 (by decide), digit 1 (by decide), digit 2 (by decide),
    bytesKeptBut_storeBytes (bcdDigits_length _) s _, rfl, ?_⟩
  exact (onlyChanges_storeBytes (by simp) s _ _).trans (onlyChanges_advance (by simp) _ .step)

/-! ## FX55 (R174) -/

theorem exec_ldMemVx_of_room {x : Nibble} {s : State} (room : s.I.toNat + x.toNat ≤ 0xFFF) :
    exec (.ldMemVx x) s =
      .next (((s.storeBytes s.I.toNat (regBlock s x)).setI (indexPast s x)).advance .step) :=
  execLdMemVx_eq_next.2 ⟨room, rfl⟩

theorem exec_ldMemVx_of_overflow {x : Nibble} {s : State} (past : 0xFFF < s.I.toNat + x.toNat) :
    exec (.ldMemVx x) s = .fault .addressOverflow :=
  checkSpan_fail (mt blockSpan_iff.1 past.not_ge) _

/-- Where the block V0..VX has been stored, the byte at offset k is Vk. -/
theorem memRead_storeBytes_regBlock {a : Nat} {x k : Nibble} (s : State) (room : a + x.toNat ≤ 0xFFF)
    (hk : k.toNat ≤ x.toNat) : memRead (s.storeBytes a (regBlock s x)).mem (a + k.toNat) = s.readV k := by
  have inBlock : k.toNat < (regBlock s x).length := by
    rw [regBlock_length, blockLen]
    omega
  have inside : a + (regBlock s x).length ≤ Config.memSize := by
    rw [regBlock_length, blockLen, Config.memSize]
    omega
  rw [State.storeBytes_mem, memRead_memWriteBytes_inside s.mem a k.toNat _ inBlock inside, regBlock_getElem,
    BitVec.ofNat_toNat, BitVec.setWidth_eq]

/-- Settles O47: with room for the block its bytes are the registers in order, without it the span check faults. -/
theorem storeBlock : Obligations.StoreBlock := by
  refine fun x s => ⟨decode_ldMemVx x, fun room => ?_, exec_ldMemVx_of_overflow⟩
  refine ⟨_, exec_ldMemVx_of_room room, fun k => memRead_storeBytes_regBlock s room,
    bytesKeptBut_storeBytes (regBlock_length s x) s _, indexPast_toNat room, rfl, ?_⟩
  exact (onlyChanges_storeBytes (by simp) s _ _).trans (onlyChanges_setI_step (by simp) (by simp) _ _)

/-! ## FX65 (R175) -/

theorem exec_ldVxMem_of_room {x : Nibble} {s : State} (room : s.I.toNat + x.toNat ≤ 0xFFF) :
    exec (.ldVxMem x) s = .next (((s.setAllV (loadBlock s x)).setI (indexPast s x)).advance .step) :=
  execLdVxMem_eq_next.2 ⟨room, rfl⟩

theorem exec_ldVxMem_of_overflow {x : Nibble} {s : State} (past : 0xFFF < s.I.toNat + x.toNat) :
    exec (.ldVxMem x) s = .fault .addressOverflow :=
  checkSpan_fail (mt blockSpan_iff.1 past.not_ge) _

/-- After the load a register of the block holds its byte; a register above the block is kept. -/
theorem setAllV_loadBlock_readV (s : State) (x j : Nibble) :
    (s.setAllV (loadBlock s x)).readV j =
      if j.toNat ≤ x.toNat then memRead s.mem (s.I.toNat + j.toNat) else s.readV j := by
  rw [State.setAllV_readV, loadBlock_getElem, memOperand]

end Sys2Proof.Machine

namespace Sys2Proof
open Machine

/-- Settles O48: with room for the block each of its registers takes its byte, without it the span check faults. The
name stands outside `Machine`, where `loadBlock` is what FX65 loads. -/
theorem loadBlock : Obligations.LoadBlock := by
  refine fun x s => ⟨decode_ldVxMem x, fun room => ?_, exec_ldVxMem_of_overflow⟩
  refine ⟨_, exec_ldVxMem_of_room room, fun j => ?_, indexPast_toNat room, rfl, ?_⟩
  · rw [State.advance_readV, State.setI_readV, setAllV_loadBlock_readV]
    exact ⟨fun low => if_pos low, fun high => if_neg high.not_ge⟩
  · exact (onlyChanges_setAllV (by simp) s _).trans (onlyChanges_setI_step (by simp) (by simp) _ _)

end Sys2Proof
end

section
/-!
PROOFS. The display family (44_display.md): the cleared screen, and the dirty flag of DXYN.
-/
namespace Sys2Proof.Machine

/-! ## 00E0 (R190) -/

theorem onlyChanges_setFrame {ps : List Piece} (hFB : .FB ∈ ps) (hdirty : .dirty ∈ ps) (s : State) (f : Frame) :
    OnlyChanges ps s (s.setFrame f) := by
  intro p hp
  cases p
  case FB => exact absurd hFB hp
  case dirty => exact absurd hdirty hp
  all_goals simp [Piece.same]

theorem exec_cls (s : State) : exec .cls s = .next ((s.setFrame blankFrame).advance .step) := rfl

/-- Settles O51: the frame becomes the blank one, and a frame that is set is dirty, whatever it was before. -/
theorem clearScreen : Obligations.ClearScreen := by
  refine ⟨rfl, fun s => ⟨_, exec_cls s, fun px py _ _ => pixel_blankFrame px py, rfl, rfl, ?_⟩⟩
  exact (onlyChanges_setFrame (by simp) (by simp) s blankFrame).trans (onlyChanges_advance (by simp) _ .step)

/-! ## The dirty flag of DXYN (R195) -/

theorem exec_drw_dirty {x y n : Nibble} {s t : State} (h : exec (.drw x y n) s = .next t) : t.dirty = true := by
  obtain ⟨-, rfl⟩ := execDrw_eq_next.1 h
  rfl

theorem step_of_faulted {s : State} {k : Fault} (hfault : s.fault = some k) : step s = .fault k := by
  rw [step, hfault]
  rfl

theorem step_of_fetchInstr {s : State} {i : Instr} (running : s.fault = none) (hfetch : fetchInstr s = .ok i) :
    step s = exec i s := by
  rw [step, running, hfetch]

/-- Where the fetched instruction faults the step faults: with that fault, or with the one recorded before (R91). -/
theorem step_faults_of_exec {i : Instr} {s : State} {k : Fault} (hfetch : fetchInstr s = .ok i)
    (hexec : exec i s = .fault k) : ∃ k', step s = .fault k' := by
  cases hfault : s.fault with
  | some recorded => exact ⟨recorded, step_of_faulted hfault⟩
  | none => exact ⟨k, (step_of_fetchInstr hfault hfetch).trans hexec⟩

/-- Settles O53: a completed draw has set the frame, and the call of a faulting step changes `fault` alone. -/
theorem drawSetsDirty : Obligations.DrawSetsDirty := by
  refine fun x y n s => ⟨fun t => exec_drw_dirty, fun k hfetch hexec => ?_⟩
  obtain ⟨k', faults⟩ := step_faults_of_exec hfetch hexec
  rw [stepCall_of_fault faults, State.raise_dirty]

end Sys2Proof.Machine
end

section
/-!
PROOFS. The timer family (45_timers.md): the timers' setters, and what a run of `tick()` calls leaves of the tone.
-/
namespace Sys2Proof

/-! ## The words of the family (R75) -/

theorem decode_ldVxDT (x : Nibble) : decode (0xF#4 ++ x ++ 0x07#8) = .ok (.ldVxDT x) := by
  simp [decode, decodeGroupF]

theorem decode_ldDTVx (x : Nibble) : decode (0xF#4 ++ x ++ 0x15#8) = .ok (.ldDTVx x) := by
  simp [decode, decodeGroupF]

theorem decode_ldSTVx (x : Nibble) : decode (0xF#4 ++ x ++ 0x18#8) = .ok (.ldSTVx x) := by
  simp [decode, decodeGroupF]

end Sys2Proof

namespace Sys2Proof.Machine

/-! ## Frames of the timers' setters -/

theorem onlyChanges_setDT {ps : List Piece} (hps : .DT ∈ ps) (s : State) (v : Byte) : OnlyChanges ps s (s.setDT v) := by
  intro p hp
  cases p
  case DT => exact absurd hps hp
  all_goals simp [Piece.same]

theorem onlyChanges_setST {ps : List Piece} (hps : .ST ∈ ps) (s : State) (v : Byte) : OnlyChanges ps s (s.setST v) := by
  intro p hp
  cases p
  case ST => exact absurd hps hp
  all_goals simp [Piece.same]

/-! ## The tone under `tick()` (R213, R214) -/

theorem toneEnabled_iff (s : State) : toneEnabled s = true ↔ 0 < s.ST.toNat := decide_eq_true_iff

theorem apply_tick_of_running {s : State} (running : s.fault = none) :
    (Move.tick.apply s).1 = (s.setDT (countDown s.DT)).setST (countDown s.ST) := by
  rw [Move.apply, tickCall, tick_of_running running, settle]

/-- A tick records no fault, so a core that runs takes each of n ticks off ST, floored at 0. -/
theorem runMoves_ticks_ST_toNat {s : State} (running : s.fault = none) (n : Nat) :
    (runMoves (List.replicate n .tick) s).ST.toNat = s.ST.toNat - n := by
  induction n generalizing s with
  | zero => rfl
  | succ n ih =>
    have stillRunning : ((s.setDT (countDown s.DT)).setST (countDown s.ST)).fault = none := running
    rw [List.replicate_succ, runMoves, apply_tick_of_running running, ih stillRunning, State.setST_ST,
      countDown_toNat, Nat.sub_sub, Nat.add_comm 1 n]

theorem toneEnabled_ticks_iff {s : State} (running : s.fault = none) (n : Nat) :
    toneEnabled (runMoves (List.replicate n .tick) s) = true ↔ n < s.ST.toNat := by
  rw [toneEnabled_iff, runMoves_ticks_ST_toNat running, Nat.sub_pos_iff_lt]

/-! ## FX07, FX15 and FX18 (R210, R211, R212) -/

theorem exec_ldDTVx (x : Nibble) (s : State) : exec (.ldDTVx x) s = .next ((s.setDT (s.readV x)).advance .step) := rfl

theorem exec_ldSTVx (x : Nibble) (s : State) : exec (.ldSTVx x) s = .next ((s.setST (s.readV x)).advance .step) := rfl

/-- Settles O55: FX07 is DT written to Vx, FX15 and FX18 set one timer, and the ticks after FX18 start from ST = Vx. -/
theorem timerInstructions : Obligations.TimerInstructions := by
  refine fun x s => ⟨decode_ldVxDT x, decode_ldDTVx x, decode_ldSTVx x, writeResult_spec x s.DT s, ?_, ?_⟩
  · exact ⟨_, exec_ldDTVx x s, rfl, rfl,
      (onlyChanges_setDT (by simp) s _).trans (onlyChanges_advance (by simp) _ .step)⟩
  · exact ⟨_, exec_ldSTVx x s, rfl, rfl,
      (onlyChanges_setST (by simp) s _).trans (onlyChanges_advance (by simp) _ .step),
      fun running => toneEnabled_ticks_iff (s := (s.setST (s.readV x)).advance .step) running⟩

end Sys2Proof.Machine
end

section
/-!
PROOFS. The decoder and the encoder (30_encoding.md): the word of each row decodes to the row's instruction, every
decoded word encodes back, and the decoder agrees with the opcode map as the spec prints it.
-/
namespace Sys2Proof
open Machine

/-! ## The word of each row decodes to its instruction (R75) -/

theorem decode_sys {nnn : Addr12} (notCls : nnn ≠ 0x0E0#12) (notRet : nnn ≠ 0x0EE#12) :
    decode (0x0#4 ++ nnn) = .ok (.sys nnn) := by
  simp [decode, decodeGroup0, notCls, notRet]

theorem decode_jp (nnn : Addr12) : decode (0x1#4 ++ nnn) = .ok (.jp nnn) := by
  simp [decode]

theorem decode_seReg (x y : Nibble) : decode (0x5#4 ++ x ++ y ++ 0x0#4) = .ok (.seReg x y) := by
  simp [decode, decodeLow0]

theorem decode_addImm (x : Nibble) (kk : Byte) : decode (0x7#4 ++ x ++ kk) = .ok (.addImm x kk) := by
  simp [decode]

theorem decode_orReg (x y : Nibble) : decode (0x8#4 ++ x ++ y ++ 0x1#4) = .ok (.orReg x y) := by
  simp [decode, decodeGroup8]

theorem decode_andReg (x y : Nibble) : decode (0x8#4 ++ x ++ y ++ 0x2#4) = .ok (.andReg x y) := by
  simp [decode, decodeGroup8]

theorem decode_xorReg (x y : Nibble) : decode (0x8#4 ++ x ++ y ++ 0x3#4) = .ok (.xorReg x y) := by
  simp [decode, decodeGroup8]

theorem decode_addReg (x y : Nibble) : decode (0x8#4 ++ x ++ y ++ 0x4#4) = .ok (.addReg x y) := by
  simp [decode, decodeGroup8]

theorem decode_subReg (x y : Nibble) : decode (0x8#4 ++ x ++ y ++ 0x5#4) = .ok (.subReg x y) := by
  simp [decode, decodeGroup8]

theorem decode_shrReg (x y : Nibble) : decode (0x8#4 ++ x ++ y ++ 0x6#4) = .ok (.shrReg x y) := by
  simp [decode, decodeGroup8]

theorem decode_subnReg (x y : Nibble) : decode (0x8#4 ++ x ++ y ++ 0x7#4) = .ok (.subnReg x y) := by
  simp [decode, decodeGroup8]

theorem decode_shlReg (x y : Nibble) : decode (0x8#4 ++ x ++ y ++ 0xE#4) = .ok (.shlReg x y) := by
  simp [decode, decodeGroup8]

theorem decode_sneReg (x y : Nibble) : decode (0x9#4 ++ x ++ y ++ 0x0#4) = .ok (.sneReg x y) := by
  simp [decode, decodeLow0]

theorem decode_jpV0 (nnn : Addr12) : decode (0xB#4 ++ nnn) = .ok (.jpV0 nnn) := by
  simp [decode]

theorem decode_rnd (x : Nibble) (kk : Byte) : decode (0xC#4 ++ x ++ kk) = .ok (.rnd x kk) := by
  simp [decode]

theorem decode_drw (x y n : Nibble) : decode (0xD#4 ++ x ++ y ++ n) = .ok (.drw x y n) := by
  simp [decode]

theorem decode_skp (x : Nibble) : decode (0xE#4 ++ x ++ 0x9E#8) = .ok (.skp x) := by
  simp [decode, decodeGroupE]

theorem decode_sknp (x : Nibble) : decode (0xE#4 ++ x ++ 0xA1#8) = .ok (.sknp x) := by
  simp [decode, decodeGroupE]

theorem decode_ldVxK (x : Nibble) : decode (0xF#4 ++ x ++ 0x0A#8) = .ok (.ldVxK x) := by
  simp [decode, decodeGroupF]

theorem decode_addI (x : Nibble) : decode (0xF#4 ++ x ++ 0x1E#8) = .ok (.addI x) := by
  simp [decode, decodeGroupF]

theorem decode_ldF (x : Nibble) : decode (0xF#4 ++ x ++ 0x29#8) = .ok (.ldF x) := by
  simp [decode, decodeGroupF]

theorem sysTarget_iff (nnn : Addr12) : sysTarget nnn = true ↔ nnn ≠ 0x0E0#12 ∧ nnn ≠ 0x0EE#12 := by
  rw [sysTarget, Bool.and_eq_true, bne_iff_ne, bne_iff_ne]
  rfl

/-- Settles O2: row by row; only for 0NNN is well-formedness needed, to keep off 00E0 and 00EE. -/
theorem decodeEncode : Obligations.DecodeEncode := by
  intro i wf
  cases i with
  | cls => rfl
  | ret => rfl
  | sys nnn =>
    obtain ⟨notCls, notRet⟩ := (sysTarget_iff nnn).1 wf
    exact decode_sys notCls notRet
  | jp nnn => exact decode_jp nnn
  | call nnn => exact decode_call nnn
  | seImm x kk => exact decode_seImm x kk
  | sneImm x kk => exact decode_sneImm x kk
  | seReg x y => exact decode_seReg x y
  | ldImm x kk => exact decode_ldImm x kk
  | addImm x kk => exact decode_addImm x kk
  | ldReg x y => exact decode_ldReg x y
  | orReg x y => exact decode_orReg x y
  | andReg x y => exact decode_andReg x y
  | xorReg x y => exact decode_xorReg x y
  | addReg x y => exact decode_addReg x y
  | subReg x y => exact decode_subReg x y
  | shrReg x y => exact decode_shrReg x y
  | subnReg x y => exact decode_subnReg x y
  | shlReg x y => exact decode_shlReg x y
  | sneReg x y => exact decode_sneReg x y
  | ldI nnn => exact decode_ldI nnn
  | jpV0 nnn => exact decode_jpV0 nnn
  | rnd x kk => exact decode_rnd x kk
  | drw x y n => exact decode_drw x y n
  | skp x => exact decode_skp x
  | sknp x => exact decode_sknp x
  | ldVxDT x => exact decode_ldVxDT x
  | ldVxK x => exact decode_ldVxK x
  | ldDTVx x => exact decode_ldDTVx x
  | ldSTVx x => exact decode_ldSTVx x
  | addI x => exact decode_addI x
  | ldF x => exact decode_ldF x
  | ldB x => exact decode_ldB x
  | ldMemVx x => exact decode_ldMemVx x
  | ldVxMem x => exact decode_ldVxMem x

/-! ## An instruction as two bytes (R55) -/

theorem highByte_eq_div (w : Word) : highByte w = BitVec.ofNat 8 (w.toNat / 256) :=
  BitVec.eq_of_toNat_eq ((toNat_extractLsb'_eq_div_mod w 8 8).trans (BitVec.toNat_ofNat _ 8).symm)

theorem lowByte_eq_mod (w : Word) : lowByte w = BitVec.ofNat 8 (w.toNat % 256) := by
  apply BitVec.eq_of_toNat_eq
  rw [lowByte, toNat_extractLsb'_zero_eq_mod, BitVec.toNat_ofNat]
  exact (Nat.mod_mod _ 256).symm

/-- Settles O7: the two bytes of the word, put together again, decode to the instruction whatever follows them. -/
theorem decodeBytesTakesTwo : Obligations.DecodeBytesTakesTwo := by
  intro i rest wf
  constructor
  · rw [encodeBytes, List.cons_append, List.cons_append, List.nil_append, decodeBytes, wordOfBytes_bytes,
      decodeEncode i wf]
    rfl
  · rw [encodeBytes, highByte_eq_div, lowByte_eq_mod]

/-- Settles O6: each word is decoded by evaluation. -/
theorem sampleWords : Obligations.SampleWords := by
  unfold Obligations.SampleWords
  decide

/-! ## What decodes is well-formed and encodes back (R73, R75) -/

theorem decodeGroup0_wf (w : Word) : (decodeGroup0 w).wf = true := by
  unfold decodeGroup0
  split
  · rfl
  · split
    · rfl
    · next notCls notRet => exact (sysTarget_iff _).2 ⟨notCls, notRet⟩

theorem encode_decodeGroup0 (w : Word) : encode (decodeGroup0 w) = 0x0#4 ++ addrField w := by
  unfold decodeGroup0
  split
  · next isCls => rw [isCls]; rfl
  · split
    · next isRet => rw [isRet]; rfl
    · rfl

theorem decodeLow0_eq_ok {w : Word} {i j : Instr} : decodeLow0 w i = .ok j ↔ nField w = 0x0#4 ∧ i = j := by
  rw [decodeLow0]
  split
  · next low => simp [low]
  · next high => simp [show nField w ≠ 0x0#4 from high]

theorem encode_of_decodeGroup8 {w : Word} {i : Instr} (h : decodeGroup8 w = .ok i) :
    i.wf = true ∧ encode i = 0x8#4 ++ xField w ++ yField w ++ nField w := by
  simp only [decodeGroup8] at h
  split at h
  case h_10 => cases h
  all_goals
    next hn =>
    cases h
    exact ⟨rfl, by rw [hn]; rfl⟩

theorem encode_of_decodeGroupE {w : Word} {i : Instr} (h : decodeGroupE w = .ok i) :
    i.wf = true ∧ encode i = 0xE#4 ++ xField w ++ byteField w := by
  rw [decodeGroupE] at h
  split at h
  case h_3 => cases h
  all_goals
    next hkk =>
    cases h
    exact ⟨rfl, by rw [hkk]; rfl⟩

theorem encode_of_decodeGroupF {w : Word} {i : Instr} (h : decodeGroupF w = .ok i) :
    i.wf = true ∧ encode i = 0xF#4 ++ xField w ++ byteField w := by
  simp only [decodeGroupF] at h
  split at h
  case h_10 => cases h
  all_goals
    next hkk =>
    cases h
    exact ⟨rfl, by rw [hkk]; rfl⟩

theorem nibble_eq_F {n : Nibble} (h : n ∉ List.ofFn (n := 15) (fun k => BitVec.ofNat 4 k.val)) : n = 0xF#4 := by
  revert n
  decide

/-- Settles O3: group by group, the operands are fields of the word and its constant digits are those of the row. -/
theorem encodeDecode : Obligations.EncodeDecode := by
  intro w i h
  rw [decode] at h
  split at h
  case h_1 op =>
    cases h
    rw [encode_decodeGroup0, ← op, word_of_address]
    exact ⟨decodeGroup0_wf w, rfl⟩
  case h_2 op | h_3 op | h_11 op | h_12 op =>
    cases h
    exact ⟨rfl, by rw [encode, ← op, word_of_address]⟩
  case h_4 op | h_5 op | h_7 op | h_8 op | h_13 op =>
    cases h
    exact ⟨rfl, by rw [encode, ← op, word_of_immediate]⟩
  case h_6 op | h_10 op =>
    obtain ⟨low, rfl⟩ := decodeLow0_eq_ok.1 h
    exact ⟨rfl, by rw [encode, ← op, ← low, word_of_digits]⟩
  case h_9 op =>
    obtain ⟨wf, word⟩ := encode_of_decodeGroup8 h
    rw [word, ← op, word_of_digits]
    exact ⟨wf, rfl⟩
  case h_14 op =>
    cases h
    exact ⟨rfl, by rw [encode, ← op, word_of_digits]⟩
  case h_15 op =>
    obtain ⟨wf, word⟩ := encode_of_decodeGroupE h
    rw [word, ← op, word_of_immediate]
    exact ⟨wf, rfl⟩
  case h_16 =>
    have op : opField w = 0xF#4 := nibble_eq_F (by simp_all [List.ofFn_succ])
    obtain ⟨wf, word⟩ := encode_of_decodeGroupF h
    rw [word, ← op, word_of_immediate]
    exact ⟨wf, rfl⟩

/-! ## The words that are no instruction (R76) -/

/-- A decoder's two answers for a word: rejected, and then the word is one of those in `P`, or an instruction. -/
def RejectsExactly (P : Prop) (w : Word) (r : Except DecodeError Instr) : Prop :=
  (P ∧ r = .error (.invalidOpcode w)) ∨ (¬P ∧ ∃ i, r = .ok i)

theorem decodeLow0_rejects (w : Word) (i : Instr) : RejectsExactly (nField w ≠ 0x0#4) w (decodeLow0 w i) := by
  rw [decodeLow0]
  split
  · next low => exact .inr ⟨not_not.2 low, i, rfl⟩
  · next high => exact .inl ⟨high, rfl⟩

theorem decodeGroup8_rejects (w : Word) :
    RejectsExactly (nField w ∈ [0x8#4, 0x9#4, 0xA#4, 0xB#4, 0xC#4, 0xD#4, 0xF#4]) w (decodeGroup8 w) := by
  simp only [decodeGroup8]
  split
  case h_10 =>
    refine .inl ⟨?_, rfl⟩
    generalize nField w = n at *
    revert n
    decide
  all_goals
    next hn => exact .inr ⟨by rw [hn]; decide, _, rfl⟩

theorem decodeGroupE_rejects (w : Word) :
    RejectsExactly (byteField w ∉ [0x9E#8, 0xA1#8]) w (decodeGroupE w) := by
  rw [decodeGroupE]
  split
  case h_3 => exact .inl ⟨by simp_all, rfl⟩
  all_goals
    next hkk => exact .inr ⟨by rw [hkk]; decide, _, rfl⟩

theorem decodeGroupF_rejects (w : Word) :
    RejectsExactly (byteField w ∉ [0x07#8, 0x0A#8, 0x15#8, 0x18#8, 0x1E#8, 0x29#8, 0x33#8, 0x55#8, 0x65#8]) w
      (decodeGroupF w) := by
  simp only [decodeGroupF]
  split
  case h_10 => exact .inl ⟨by simp_all, rfl⟩
  all_goals
    next hkk => exact .inr ⟨by rw [hkk]; decide, _, rfl⟩

theorem decode_rejects (w : Word) : RejectsExactly (InvalidWord w) w (decode w) := by
  rw [decode]
  split
  case h_6 op | h_10 op => simpa [InvalidWord, op] using decodeLow0_rejects w _
  case h_9 op => simpa [InvalidWord, op] using decodeGroup8_rejects w
  case h_15 op => simpa [InvalidWord, op] using decodeGroupE_rejects w
  case h_16 =>
    have op : opField w = 0xF#4 := nibble_eq_F (by simp_all [List.ofFn_succ])
    simpa [InvalidWord, op] using decodeGroupF_rejects w
  all_goals
    next op => exact .inr ⟨by simp [InvalidWord, op], _, rfl⟩

/-- Settles O5: the decoder rejects a word or gives an instruction, the one exactly on the words of the table. -/
theorem invalidWordsRejected : Obligations.InvalidWordsRejected := by
  intro w
  rcases decode_rejects w with ⟨invalid, rejected⟩ | ⟨valid, i, decoded⟩
  · simp [invalid, rejected]
  · simp [valid, decoded]

/-! ## The opcode map as printed (R74, R75) -/

theorem hits_all_iff {name : String} {p w : Word} {b : Word → Instr} :
    OpRow.hits ⟨name, 0xFFFF#16, p, b⟩ w = true ↔ w = p := by
  rw [OpRow.hits, beq_iff_eq, mask_all]

theorem hits_major_iff {name : String} {p w : Word} {b : Word → Instr} :
    OpRow.hits ⟨name, 0xF000#16, p, b⟩ w = true ↔ opField w = opField p ∧ addrField p = 0x000#12 := by
  rw [OpRow.hits, beq_iff_eq, mask_major]
  constructor
  · rintro rfl
    simp
  · rintro ⟨op, addr⟩
    rw [op, ← addr, word_of_address]

theorem hits_low_nibble_iff {name : String} {p w : Word} {b : Word → Instr} :
    OpRow.hits ⟨name, 0xF00F#16, p, b⟩ w = true ↔
      opField w = opField p ∧ xField p = 0x0#4 ∧ yField p = 0x0#4 ∧ nField w = nField p := by
  rw [OpRow.hits, beq_iff_eq, mask_low_nibble]
  constructor
  · rintro rfl
    simp
  · rintro ⟨op, x, y, n⟩
    have := word_of_digits p
    rwa [x, y, ← op, ← n] at this

theorem hits_low_byte_iff {name : String} {p w : Word} {b : Word → Instr} :
    OpRow.hits ⟨name, 0xF0FF#16, p, b⟩ w = true ↔
      opField w = opField p ∧ xField p = 0x0#4 ∧ byteField w = byteField p := by
  rw [OpRow.hits, beq_iff_eq, mask_low_byte]
  constructor
  · rintro rfl
    simp
  · rintro ⟨op, x, kk⟩
    rw [op, kk, ← x, word_of_immediate]

/-- Two rows that some word hits agree on the digits that both look at. -/
theorem patterns_agree {r r' : OpRow} {w : Word} (h : r.hits w = true) (h' : r'.hits w = true) :
    r.pattern &&& r'.mask = r'.pattern &&& r.mask := by
  rw [OpRow.hits, beq_iff_eq] at h h'
  rw [← h, ← h', BitVec.and_assoc, BitVec.and_assoc, BitVec.and_comm r.mask]

theorem opcodeMap_disagree : opcodeMap.Pairwise (fun r r' =>
    r.pattern &&& r'.mask = r'.pattern &&& r.mask → r'.mask = 0xF000#16 ∧ r'.pattern = 0x0000#16) := by
  decide

/-- The digits of a pattern of the map, which is written as one number. -/
theorem fields_ofNat (k : Nat) :
    opField (BitVec.ofNat 16 k) = (BitVec.ofNat 16 k).extractLsb' 12 4 ∧
    byteField (BitVec.ofNat 16 k) = (BitVec.ofNat 16 k).extractLsb' 0 8 ∧
    nField (BitVec.ofNat 16 k) = (BitVec.ofNat 16 k).extractLsb' 0 4 := ⟨rfl, rfl, rfl⟩

/-- Row by row: the digits that a hit fixes are those the decoder selects the row by. -/
theorem decode_of_hits {w : Word} {r : OpRow} (notCls : w ≠ 0x00E0#16) (notRet : w ≠ 0x00EE#16)
    (listed : r ∈ opcodeMap) (h : r.hits w = true) : decode w = .ok (r.build w) := by
  simp only [opcodeMap, List.cons_append, List.nil_append, List.mem_cons, List.not_mem_nil, or_false] at listed
  rcases listed with rfl | rfl | rfl | rfl | rfl | rfl | rfl | rfl | rfl | rfl |
    rfl | rfl | rfl | rfl | rfl | rfl | rfl | rfl | rfl | rfl |
    rfl | rfl | rfl | rfl | rfl | rfl | rfl | rfl | rfl | rfl | rfl | rfl | rfl | rfl | rfl
  · exact absurd (hits_all_iff.1 h) notCls
  · exact absurd (hits_all_iff.1 h) notRet
  · have op : opField w = 0x0#4 := (hits_major_iff.1 h).1
    have word : 0x0#4 ++ addrField w = w := by rw [← op, word_of_address]
    have notE0 : addrField w ≠ 0x0E0#12 := fun e => notCls (by rw [← word, e]; rfl)
    have notEE : addrField w ≠ 0x0EE#12 := fun e => notRet (by rw [← word, e]; rfl)
    have decoded := decode_sys notE0 notEE
    rwa [word] at decoded
  all_goals
    simp only [BitVec.ofNat_eq_ofNat, hits_major_iff, hits_low_nibble_iff, hits_low_byte_iff, fields_ofNat] at h
    simp [decode, decodeLow0, decodeGroup8, decodeGroupE, decodeGroupF, h]

theorem inOpcodeMap (i : Instr) : Laws.InOpcodeMap.Statement i := by
  cases i with
  | cls => exact Laws.InOpcodeMap.cls
  | ret => exact Laws.InOpcodeMap.ret
  | sys nnn => exact Laws.InOpcodeMap.sys nnn
  | jp nnn => exact Laws.InOpcodeMap.jp nnn
  | call nnn => exact Laws.InOpcodeMap.call nnn
  | seImm x kk => exact Laws.InOpcodeMap.seImm x kk
  | sneImm x kk => exact Laws.InOpcodeMap.sneImm x kk
  | seReg x y => exact Laws.InOpcodeMap.seReg x y
  | ldImm x kk => exact Laws.InOpcodeMap.ldImm x kk
  | addImm x kk => exact Laws.InOpcodeMap.addImm x kk
  | ldReg x y => exact Laws.InOpcodeMap.ldReg x y
  | orReg x y => exact Laws.InOpcodeMap.orReg x y
  | andReg x y => exact Laws.InOpcodeMap.andReg x y
  | xorReg x y => exact Laws.InOpcodeMap.xorReg x y
  | addReg x y => exact Laws.InOpcodeMap.addReg x y
  | subReg x y => exact Laws.InOpcodeMap.subReg x y
  | shrReg x y => exact Laws.InOpcodeMap.shrReg x y
  | subnReg x y => exact Laws.InOpcodeMap.subnReg x y
  | shlReg x y => exact Laws.InOpcodeMap.shlReg x y
  | sneReg x y => exact Laws.InOpcodeMap.sneReg x y
  | ldI nnn => exact Laws.InOpcodeMap.ldI nnn
  | jpV0 nnn => exact Laws.InOpcodeMap.jpV0 nnn
  | rnd x kk => exact Laws.InOpcodeMap.rnd x kk
  | drw x y n => exact Laws.InOpcodeMap.drw x y n
  | skp x => exact Laws.InOpcodeMap.skp x
  | sknp x => exact Laws.InOpcodeMap.sknp x
  | ldVxDT x => exact Laws.InOpcodeMap.ldVxDT x
  | ldVxK x => exact Laws.InOpcodeMap.ldVxK x
  | ldDTVx x => exact Laws.InOpcodeMap.ldDTVx x
  | ldSTVx x => exact Laws.InOpcodeMap.ldSTVx x
  | addI x => exact Laws.InOpcodeMap.addI x
  | ldF x => exact Laws.InOpcodeMap.ldF x
  | ldB x => exact Laws.InOpcodeMap.ldB x
  | ldMemVx x => exact Laws.InOpcodeMap.ldMemVx x
  | ldVxMem x => exact Laws.InOpcodeMap.ldVxMem x

/-- A word without a row is rejected: an instruction's word would hit the instruction's own row. -/
theorem decode_of_matchingRow_eq_none {w : Word} (h : matchingRow w = none) :
    decode w = .error (.invalidOpcode w) := by
  rcases decode_rejects w with ⟨-, rejected⟩ | ⟨-, i, decoded⟩
  · exact rejected
  · obtain ⟨r, listed, hits, -⟩ := inOpcodeMap i
    rw [(encodeDecode w i decoded).2] at hits
    exact absurd hits (List.find?_eq_none.1 h r listed)

/-- The first row that a word hits is the row that decodes it: 0NNN comes first only for a word that is neither 00E0
nor 00EE. -/
theorem decode_of_matchingRow_eq_some {w : Word} {r : OpRow} (h : matchingRow w = some r) :
    decode w = .ok (r.build w) := by
  by_cases isCls : w = 0x00E0#16
  · subst isCls
    cases h
    rfl
  by_cases isRet : w = 0x00EE#16
  · subst isRet
    cases h
    rfl
  rw [matchingRow] at h
  exact decode_of_hits isCls isRet (List.mem_of_find?_eq_some h) (List.find?_some (p := fun r : OpRow => r.hits w) h)

/-- Settles O4: a hit row decodes the word, and rows that share a word must agree where both look, which rules out
every pair but those whose second row is 0NNN. -/
theorem dispatchSelectsRow : Obligations.DispatchSelectsRow := by
  constructor
  · intro w
    cases found : matchingRow w with
    | none => exact decode_of_matchingRow_eq_none found
    | some r => exact decode_of_matchingRow_eq_some found
  · exact opcodeMap_disagree.imp fun disagree _ hits hits' => disagree (patterns_agree hits hits')

end Sys2Proof
end

section
/-!
PROOFS. What every instruction answers (40_cycle.md, 60_exceptions.md): a next state or the fault of its one check;
its PC policy; the pieces of the state it writes; its flag; and the outputs that none reads.
-/
namespace Sys2Proof.Machine

/-! ## The checks of DXYN and of the key tests (R191, R221, R222) -/

theorem exec_drw_of_room (x y : Nibble) {n : Nibble} {s : State}
    (room : n.toNat = 0 ∨ s.I.toNat + n.toNat - 1 ≤ 0xFFF) : ∃ t, exec (.drw x y n) s = .next t :=
  ⟨_, execDrw_eq_next.2 ⟨room, rfl⟩⟩

theorem exec_drw_of_overflow (x y : Nibble) {n : Nibble} {s : State}
    (past : 0 < n.toNat ∧ 0xFFF < s.I.toNat + n.toNat - 1) : exec (.drw x y n) s = .fault .addressOverflow :=
  checkSpan_fail (mt spriteSpan_iff.1 (by omega)) _

theorem keyTest_of_key {v : Byte} {k : Fin 16} (h : v.toNat = k.val) (want : Bool) (s : State) :
    keyTest v want s = skipIf (keyDown s k == want) s := by
  rw [keyTest, keyIndex_of_lt h]

theorem keyTest_of_invalid {v : Byte} (h : 15 < v.toNat) (want : Bool) (s : State) :
    keyTest v want s = .fault (.invalidKey v) := by
  rw [keyTest, keyIndex_eq_none.2 h]
  rfl

theorem keyTest_completes {v : Byte} (h : ¬15 < v.toNat) (want : Bool) (s : State) :
    ∃ t, keyTest v want s = .next t :=
  ⟨_, keyTest_of_key (k := ⟨v.toNat, by omega⟩) rfl want s⟩

theorem exec_ldVxK_of_pressed (x : Nibble) {s : State} {k : Fin 16} (lowest : lowestKey s = some k) :
    exec (.ldVxK x) s = .next (((s.setV x (BitVec.ofNat 8 k.val)).setWait .idle).advance .step) :=
  execLdVxK_eq_next.2 (.inl ⟨k, lowest, rfl⟩)

theorem exec_ldVxK_of_released (x : Nibble) {s : State} (released : lowestKey s = none) :
    exec (.ldVxK x) s = .next (s.setWait .awaitingKey) :=
  execLdVxK_eq_next.2 (.inr ⟨released, rfl⟩)

theorem exec_ldVxK_completes (x : Nibble) (s : State) : ∃ t, exec (.ldVxK x) s = .next t := by
  cases found : lowestKey s with
  | none => exact ⟨_, exec_ldVxK_of_released x found⟩
  | some k => exact ⟨_, exec_ldVxK_of_pressed x found⟩

/-! ## A next state, or the fault of the one check (R98, R240, R248) -/

/-- The instruction completes where its check passes, and raises that check's fault where it fails. -/
def AnswersByCause (i : Instr) (s : State) : Prop :=
  (∃ t, exec i s = .next t ∧ ∀ k, ¬FaultCause i s k) ∨
    ∃ k, exec i s = .fault k ∧ ∀ k', FaultCause i s k' ↔ k' = k

theorem answersByCause_of_check {i : Instr} {s : State} {fails : Prop} {k : Fault}
    (cause : ∀ k', FaultCause i s k' ↔ fails ∧ k' = k) (completes : ¬fails → ∃ t, exec i s = .next t)
    (faults : fails → exec i s = .fault k) : AnswersByCause i s := by
  by_cases h : fails
  · exact .inr ⟨k, faults h, fun k' => (cause k').trans (and_iff_right h)⟩
  · obtain ⟨t, next⟩ := completes h
    exact .inl ⟨t, next, fun k' faulty => h ((cause k').1 faulty).1⟩

theorem exec_answers (i : Instr) (s : State) : AnswersByCause i s := by
  cases i
  case ret =>
    refine answersByCause_of_check (fun _ => Iff.rfl) (fun nonempty => ?_) exec_ret_of_empty
    obtain ⟨rest, top, stack⟩ := (List.eq_nil_or_concat' s.stack).resolve_left nonempty
    exact ⟨_, exec_ret_of_top stack⟩
  case call nnn =>
    exact answersByCause_of_check (fun _ => Iff.rfl) (fun room => ⟨_, exec_call_of_room nnn (Nat.not_le.1 room)⟩)
      (exec_call_of_full nnn)
  case drw x y n =>
    exact answersByCause_of_check (fun _ => and_assoc.symm) (fun room => exec_drw_of_room x y (by omega))
      (exec_drw_of_overflow x y)
  case ldB x =>
    exact answersByCause_of_check (fun _ => Iff.rfl) (fun room => ⟨_, exec_ldB_of_room x (Nat.not_lt.1 room)⟩)
      (exec_ldB_of_overflow x)
  case ldMemVx x =>
    exact answersByCause_of_check (fun _ => Iff.rfl) (fun room => ⟨_, exec_ldMemVx_of_room (Nat.not_lt.1 room)⟩)
      exec_ldMemVx_of_overflow
  case ldVxMem x =>
    exact answersByCause_of_check (fun _ => Iff.rfl) (fun room => ⟨_, exec_ldVxMem_of_room (Nat.not_lt.1 room)⟩)
      exec_ldVxMem_of_overflow
  case skp x =>
    exact answersByCause_of_check (fun _ => Iff.rfl) (fun valid => keyTest_completes valid true s)
      (fun invalid => keyTest_of_invalid invalid true s)
  case sknp x =>
    exact answersByCause_of_check (fun _ => Iff.rfl) (fun valid => keyTest_completes valid false s)
      (fun invalid => keyTest_of_invalid invalid false s)
  case ldVxK x =>
    obtain ⟨t, next⟩ := exec_ldVxK_completes x s
    exact .inl ⟨t, next, fun _ => id⟩
  all_goals exact .inl ⟨_, rfl, fun _ => id⟩

/-- Settles O18: both answers of an instruction, read off for each fault. -/
theorem faultsHaveCauses : Obligations.FaultsHaveCauses := by
  intro i s
  rcases exec_answers i s with ⟨t, next, fine⟩ | ⟨k, faults, cause⟩
  · simp [next, fine]
  · simp [faults, cause, eq_comm]

/-! ## The PC policy of the row (R94) -/

theorem pc_of_complete_step {s s' t : State} (h : complete s' .step = .next t) (kept : s'.PC = s.PC) :
    t.PC = s.PC + 2 := by
  obtain rfl := complete_eq_next.1 h
  rw [State.advance_PC, kept, pcAfter_step]

theorem pc_of_skipIf {c : Bool} {s t : State} (h : skipIf c s = .next t) : t.PC = s.PC + 2 ∨ t.PC = s.PC + 4 := by
  obtain rfl := complete_eq_next.1 h
  cases c
  · exact .inl rfl
  · exact .inr rfl

theorem pc_of_keyTest {v : Byte} {want : Bool} {s t : State} (h : keyTest v want s = .next t) :
    t.PC = s.PC + 2 ∨ t.PC = s.PC + 4 := by
  obtain ⟨k, -, next⟩ := keyTest_eq_next.1 h
  exact pc_of_skipIf (complete_eq_next.2 next)

theorem pc_of_jumpTo {target : Word} {s t : State} (h : jumpTo target s = .next t) : t.PC = target := by
  obtain rfl := complete_eq_next.1 h
  rfl

/-- BNNN's sum is below 2 ^ 16: no wrap and no mask (R114). -/
theorem jumpV0_target_toNat (nnn : Addr12) (v : Byte) : (addr16 nnn + zext16 v).toNat = nnn.toNat + v.toNat := by
  rw [BitVec.toNat_add_of_lt (by simp only [addr16_toNat, zext16_toNat]; omega), addr16_toNat, zext16_toNat]

/-- Settles O19: one policy per shared operation of the rows. -/
theorem policyOfRow : Obligations.PolicyOfRow := by
  intro i s t h
  cases i
  case ret =>
    obtain ⟨top, stack, rfl⟩ := execRet_eq_next.1 h
    exact stack
  case call nnn =>
    obtain ⟨-, rfl⟩ := execCall_eq_next.1 h
    exact addr16_toNat nnn
  case sys nnn | jp nnn => exact (congrArg BitVec.toNat (pc_of_jumpTo h)).trans (addr16_toNat nnn)
  case jpV0 nnn => exact (congrArg BitVec.toNat (pc_of_jumpTo h)).trans (jumpV0_target_toNat nnn _)
  case seImm | sneImm | seReg | sneReg => exact pc_of_skipIf h
  case skp | sknp => exact pc_of_keyTest h
  case ldVxK x =>
    rcases execLdVxK_eq_next.1 h with ⟨k, -, rfl⟩ | ⟨-, rfl⟩
    · exact .inr rfl
    · exact .inl rfl
  case drw =>
    obtain ⟨-, rfl⟩ := execDrw_eq_next.1 h
    rfl
  case ldB =>
    obtain ⟨-, rfl⟩ := execLdB_eq_next.1 h
    rfl
  case ldMemVx =>
    obtain ⟨-, rfl⟩ := execLdMemVx_eq_next.1 h
    rfl
  case ldVxMem =>
    obtain ⟨-, rfl⟩ := execLdVxMem_eq_next.1 h
    rfl
  all_goals exact pc_of_complete_step h rfl

end Sys2Proof.Machine
end

section
/-!
PROOFS. What every instruction leaves unchanged (10_state.md, 20_memory.md section 2): the frame of each, the flag
register, and the outputs that no instruction reads.
-/
namespace Sys2Proof.Machine

/-! ## Frames of the setters that are left -/

theorem onlyChanges_refl (ps : List Piece) (s : State) : OnlyChanges ps s s := by
  intro p _
  cases p <;> simp [Piece.same]

theorem OnlyChanges.mono {ps qs : List Piece} {s t : State} (frame : OnlyChanges ps s t) (sub : ps ⊆ qs) :
    OnlyChanges qs s t :=
  fun p hp => frame p (mt (@sub p) hp)

theorem onlyChanges_setWait {ps : List Piece} (hps : .wait ∈ ps) (s : State) (w : WaitState) :
    OnlyChanges ps s (s.setWait w) := by
  intro p hp
  cases p
  case wait => exact absurd hps hp
  all_goals simp [Piece.same]

theorem onlyChanges_countDraw {ps : List Piece} (hps : .draws ∈ ps) (s : State) : OnlyChanges ps s s.countDraw := by
  intro p hp
  cases p
  case draws => exact absurd hps hp
  all_goals simp [Piece.same]

theorem onlyChanges_setResultThenFlag {ps : List Piece} (hps : .V ∈ ps) (s : State) (x : Nibble) (r : Byte)
    (f : Bool) : OnlyChanges ps s (s.setResultThenFlag x r f) :=
  (onlyChanges_setV hps s x r).trans (onlyChanges_setV hps _ flagReg (flagByte f))

theorem OnlyChanges.advance {ps : List Piece} {s s' : State} (frame : OnlyChanges ps s s') (hPC : .PC ∈ ps)
    (p : PcPolicy) : OnlyChanges ps s (s'.advance p) :=
  frame.trans (onlyChanges_advance hPC s' p)

theorem onlyChanges_of_complete {ps : List Piece} {s s' t : State} {p : PcPolicy} (h : complete s' p = .next t)
    (hPC : .PC ∈ ps) (frame : OnlyChanges ps s s') : OnlyChanges ps s t := by
  obtain rfl := complete_eq_next.1 h
  exact frame.advance hPC p

theorem onlyChanges_of_keyTest {ps : List Piece} {v : Byte} {want : Bool} {s t : State}
    (h : keyTest v want s = .next t) (hPC : .PC ∈ ps) : OnlyChanges ps s t := by
  obtain ⟨k, -, rfl⟩ := keyTest_eq_next.1 h
  exact onlyChanges_advance hPC s _

/-! ## The frame of each instruction -/

/-- Settles O20: each instruction is a few setters of the pieces its rule names. -/
theorem onlyItsOwnWrites : Obligations.OnlyItsOwnWrites := by
  intro i s t h
  have hPC : .PC ∈ writesOf i := by cases i <;> simp [writesOf]
  cases i
  case seImm | sneImm | seReg | sneReg => exact onlyChanges_of_complete h hPC (onlyChanges_refl _ s)
  case skp | sknp => exact onlyChanges_of_keyTest h hPC
  case sys | jp | jpV0 => exact onlyChanges_of_complete h hPC (onlyChanges_setPC hPC s _)
  case ldImm | addImm | ldReg | orReg | andReg | xorReg | ldVxDT =>
    exact onlyChanges_of_complete h hPC (onlyChanges_setV (by simp [writesOf]) s _ _)
  case addReg | subReg | shrReg | subnReg | shlReg =>
    exact onlyChanges_of_complete h hPC (onlyChanges_setResultThenFlag (by simp [writesOf]) s _ _ _)
  case rnd =>
    exact onlyChanges_of_complete h hPC
      ((onlyChanges_countDraw (by simp [writesOf]) s).trans (onlyChanges_setV (by simp [writesOf]) _ _ _))
  case ldI | addI | ldF => exact onlyChanges_of_complete h hPC (onlyChanges_setI (by simp [writesOf]) s _)
  case ldDTVx => exact onlyChanges_of_complete h hPC (onlyChanges_setDT (by simp [writesOf]) s _)
  case ldSTVx => exact onlyChanges_of_complete h hPC (onlyChanges_setST (by simp [writesOf]) s _)
  case cls =>
    exact onlyChanges_of_complete h hPC (onlyChanges_setFrame (by simp [writesOf]) (by simp [writesOf]) s _)
  case ret =>
    obtain ⟨top, -, rfl⟩ := execRet_eq_next.1 h
    exact onlyChanges_setStack_setPC s _ _
  case call =>
    obtain ⟨-, rfl⟩ := execCall_eq_next.1 h
    exact onlyChanges_setStack_setPC s _ _
  case drw =>
    obtain ⟨-, rfl⟩ := execDrw_eq_next.1 h
    refine OnlyChanges.advance ?_ hPC _
    exact (onlyChanges_setFrame (by simp [writesOf]) (by simp [writesOf]) s _).trans
      (onlyChanges_setV (by simp [writesOf]) _ flagReg _)
  case ldVxK =>
    rcases execLdVxK_eq_next.1 h with ⟨k, -, rfl⟩ | ⟨-, rfl⟩
    · refine OnlyChanges.advance ?_ hPC _
      exact (onlyChanges_setV (by simp [writesOf]) s _ _).trans (onlyChanges_setWait (by simp [writesOf]) _ _)
    · exact (onlyChanges_setWait (by simp [writesOf]) s _).advance hPC _
  case ldB =>
    obtain ⟨-, rfl⟩ := execLdB_eq_next.1 h
    exact (onlyChanges_storeBytes (by simp [writesOf]) s _ _).advance hPC _
  case ldMemVx =>
    obtain ⟨-, rfl⟩ := execLdMemVx_eq_next.1 h
    exact (onlyChanges_storeBytes (by simp [writesOf]) s _ _).trans
      (onlyChanges_setI_step (by simp [writesOf]) hPC _ _)
  case ldVxMem =>
    obtain ⟨-, rfl⟩ := execLdVxMem_eq_next.1 h
    exact (onlyChanges_setAllV (by simp [writesOf]) s _).trans (onlyChanges_setI_step (by simp [writesOf]) hPC _ _)

/-! ## The flag register (R22) -/

theorem flagByte_cases (b : Bool) : flagByte b = 0#8 ∨ flagByte b = 1#8 := by
  cases b
  · exact .inl rfl
  · exact .inr rfl

theorem readV_flag_of_writeResultAndFlag {x : Nibble} {r : Byte} {f : Bool} {s t : State}
    (h : writeResultAndFlag x r f s = .next t) : t.readV 0xF#4 = flagByte f := by
  obtain rfl := complete_eq_next.1 h
  rw [State.advance_readV, State.setResultThenFlag_readV]
  exact if_pos rfl

theorem readV_flag_of_writeResult {x : Nibble} {r : Byte} {s s' t : State} (h : writeResult x r s' = .next t)
    (hx : x ≠ flagReg) (kept : s'.readV 0xF#4 = s.readV 0xF#4) : t.readV 0xF#4 = s.readV 0xF#4 := by
  obtain rfl := complete_eq_next.1 h
  rw [State.advance_readV, State.setV_readV]
  exact (if_neg hx.symm).trans kept

theorem readV_flag_of_definesFlag {i : Instr} {s t : State} (h : exec i s = .next t) (defines : DefinesFlag i) :
    t.readV 0xF#4 = 0#8 ∨ t.readV 0xF#4 = 1#8 := by
  cases i
  case addReg | subReg | shrReg | subnReg | shlReg =>
    rw [readV_flag_of_writeResultAndFlag h]
    exact flagByte_cases _
  case drw =>
    obtain ⟨-, rfl⟩ := execDrw_eq_next.1 h
    rw [State.advance_readV, State.setVF_readV]
    exact flagByte_cases _
  all_goals exact defines.elim

theorem readV_flag_kept {i : Instr} {s t : State} (h : exec i s = .next t) (noFlag : ¬DefinesFlag i)
    (notNamed : ¬NamesVF i) : t.readV 0xF#4 = s.readV 0xF#4 := by
  cases i
  case addReg | subReg | shrReg | subnReg | shlReg | drw => exact absurd trivial noFlag
  case ldImm | addImm | ldReg | orReg | andReg | xorReg | ldVxDT | rnd =>
    exact readV_flag_of_writeResult h notNamed rfl
  case ldVxK x =>
    have hx : flagReg ≠ x := Ne.symm notNamed
    rcases execLdVxK_eq_next.1 h with ⟨k, -, rfl⟩ | ⟨-, rfl⟩
    · rw [State.advance_readV, State.setWait_readV, State.setV_readV]
      exact if_neg hx
    · rfl
  case ldVxMem x =>
    have hx : ¬flagReg.toNat ≤ x.toNat := by
      have bound := x.isLt
      have distinct : x.toNat ≠ flagReg.toNat := fun e => notNamed (BitVec.eq_of_toNat_eq e)
      have last : flagReg.toNat = 15 := rfl
      omega
    obtain ⟨-, rfl⟩ := execLdVxMem_eq_next.1 h
    rw [State.advance_readV, State.setI_readV, setAllV_loadBlock_readV]
    exact if_neg hx
  all_goals exact onlyItsOwnWrites _ s t h .V (by simp [writesOf]) 0xF#4

/-- Settles O21: the flag is the last write where there is one; elsewhere VF is not among the registers written. -/
theorem flagRegister : Obligations.FlagRegister := fun _ _ _ h =>
  ⟨readV_flag_of_definesFlag h, readV_flag_kept h⟩

/-! ## The outputs that no instruction reads (R28, R30) -/

/-- The state with other values of its two outputs, ST and the dirty flag. -/
def State.withOutputs (s : State) (st : Byte) (d : Bool) : State := { s with ST := st, dirty := d }

/-- A next state whose outputs become those given, but for an output that the instruction writes. -/
def keepWritten (i : Instr) (st : Byte) (d : Bool) (t : State) : State :=
  t.withOutputs (if .ST ∈ writesOf i then t.ST else st) (if .dirty ∈ writesOf i then t.dirty else d)

theorem checkSpan_eq_mapNext {f : State → State} {a n : Nat} {r r' : Result} (h : r' = mapNext f r) :
    checkSpan a n r' = mapNext f (checkSpan a n r) := by
  rw [h, checkSpan, checkSpan]
  split <;> rfl

theorem keyTest_withOutputs (v : Byte) (want : Bool) (s : State) (st : Byte) (d : Bool) :
    keyTest v want (s.withOutputs st d) = mapNext (fun t => t.withOutputs st d) (keyTest v want s) := by
  by_cases h : 15 < v.toNat
  · rw [keyTest_of_invalid h, keyTest_of_invalid h]
    rfl
  · have key : v.toNat = (⟨v.toNat, by omega⟩ : Fin 16).val := rfl
    rw [keyTest_of_key key, keyTest_of_key key]
    rfl

/-- An instruction without a check does the same writes whatever the outputs are; a check reads neither. -/
theorem exec_withOutputs (i : Instr) (s : State) (st : Byte) (d : Bool) :
    exec i (s.withOutputs st d) = mapNext (keepWritten i st d) (exec i s) := by
  cases i
  case ret =>
    rcases List.eq_nil_or_concat' s.stack with empty | ⟨rest, top, stack⟩
    · rw [exec_ret_of_empty empty, exec_ret_of_empty (s := s.withOutputs st d) empty]
      rfl
    · rw [exec_ret_of_top stack, exec_ret_of_top (s := s.withOutputs st d) stack]
      rfl
  case call nnn =>
    rcases Nat.lt_or_ge s.stack.length 16 with room | full
    · rw [exec_call_of_room nnn room, exec_call_of_room nnn (s := s.withOutputs st d) room]
      rfl
    · rw [exec_call_of_full nnn full, exec_call_of_full nnn (s := s.withOutputs st d) full]
      rfl
  case skp | sknp => exact keyTest_withOutputs _ _ s st d
  case ldVxK x =>
    cases found : lowestKey s with
    | none =>
      rw [exec_ldVxK_of_released x found, exec_ldVxK_of_released x (s := s.withOutputs st d) found]
      rfl
    | some k =>
      rw [exec_ldVxK_of_pressed x found, exec_ldVxK_of_pressed x (s := s.withOutputs st d) found]
      rfl
  case drw | ldB | ldMemVx | ldVxMem => exact checkSpan_eq_mapNext rfl
  all_goals rfl

theorem mapNext_congr {f g : State → State} {r : Result} (h : ∀ t, r = .next t → f t = g t) :
    mapNext f r = mapNext g r := by
  cases r with
  | next t => exact congrArg Host.Outcome.next (h t rfl)
  | fault k => rfl
  | refused r => rfl

/-- An output that the instruction does not write is as before (O20), whether it is kept or put back. -/
theorem ite_dirty_of_next {i : Instr} {s t : State} (next : exec i s = .next t) :
    (if .dirty ∈ writesOf i then t.dirty else s.dirty) = t.dirty := by
  split
  · rfl
  · next unwritten => exact (onlyItsOwnWrites i s t next .dirty unwritten).symm

theorem ite_ST_of_next {i : Instr} {s t : State} (next : exec i s = .next t) :
    (if .ST ∈ writesOf i then t.ST else s.ST) = t.ST := by
  split
  · rfl
  · next unwritten => exact (onlyItsOwnWrites i s t next .ST unwritten).symm

/-- Settles O22: the run with one output changed is the run with both given, the other as it was. -/
theorem outputsUnread : Obligations.OutputsUnread := by
  intro i s v
  constructor
  · refine (exec_withOutputs i s v s.dirty).trans (mapNext_congr fun t next => ?_)
    rw [keepWritten, ite_dirty_of_next next]
    split <;> rfl
  · refine (exec_withOutputs i s s.ST false).trans (mapNext_congr fun t next => ?_)
    rw [keepWritten, ite_ST_of_next next]
    split <;> rfl

end Sys2Proof.Machine
end

section
/-!
PROOFS. The cycle (40_cycle.md, 60_exceptions.md): what the fetch answers, what a step answers, and what a faulting
step leaves for good.
-/
namespace Sys2Proof.Machine

/-! ## The fetch (R92, R93) -/

theorem fetchInstr_of_overflow {s : State} (past : 0xFFF < s.PC.toNat + 1) :
    fetchInstr s = .error .addressOverflow := by
  have outside : ¬spanOk s.PC.toNat Config.insnBytes = true := by
    rw [spanOk_iff, Config.insnBytes, Config.memSize]
    omega
  rw [fetchInstr, if_neg outside]

theorem fetchInstr_of_invalid {s : State} (inside : s.PC.toNat + 1 ≤ 0xFFF)
    (invalid : InvalidWord (wordAt s.mem s.PC.toNat)) :
    fetchInstr s = .error (.invalidOpcode (wordAt s.mem s.PC.toNat)) := by
  have span : spanOk s.PC.toNat Config.insnBytes = true := by
    rw [spanOk_iff, Config.insnBytes, Config.memSize]
    omega
  rw [fetchInstr, if_pos span, (invalidWordsRejected _).1.1 invalid]
  rfl

/-! ## The step (R90, R91, R248) -/

theorem step_of_fetch_fault {s : State} {k : Fault} (running : s.fault = none) (h : fetchInstr s = .error k) :
    step s = .fault k := by
  rw [step, running, h]
  rfl

theorem step_of_overflow {s : State} (running : s.fault = none) (past : 0xFFF < s.PC.toNat + 1) :
    step s = .fault .addressOverflow :=
  step_of_fetch_fault running (fetchInstr_of_overflow past)

theorem step_of_invalid {s : State} (running : s.fault = none) (inside : s.PC.toNat + 1 ≤ 0xFFF)
    (invalid : InvalidWord (wordAt s.mem s.PC.toNat)) :
    step s = .fault (.invalidOpcode (wordAt s.mem s.PC.toNat)) :=
  step_of_fetch_fault running (fetchInstr_of_invalid inside invalid)

theorem step_of_decode {s : State} {i : Instr} (running : s.fault = none) (inside : s.PC.toNat + 1 ≤ 0xFFF)
    (decoded : decode (wordAt s.mem s.PC.toNat) = .ok i) : step s = exec i s :=
  step_of_fetchInstr running (fetchInstr_eq_ok.2 ⟨inside, decoded⟩)

/-- Settles O11: the word decoded is the one that the fetch reads. -/
theorem stepRunsInstruction : Obligations.StepRunsInstruction := fun _ _ => step_of_decode

/-- Settles O13: the span of the fetch is checked before a byte is read. -/
theorem fetchOverflow : Obligations.FetchOverflow := fun _ => step_of_overflow

theorem not_faultCause_invalidOpcode (i : Instr) (s : State) (w : Word) : ¬FaultCause i s (.invalidOpcode w) := by
  cases i <;> simp [FaultCause]

/-- Settles O14: dispatch raises InvalidOpcode on an invalid word, and no instruction's own check raises it. -/
theorem invalidOpcodeRaised : Obligations.InvalidOpcodeRaised := by
  intro s running inside
  refine ⟨step_of_invalid running inside, fun w faults => ?_⟩
  by_cases invalid : InvalidWord (wordAt s.mem s.PC.toNat)
  · rw [step_of_invalid running inside invalid] at faults
    cases faults
    exact ⟨rfl, invalid⟩
  · obtain ⟨i, decoded⟩ := (invalidWordsRejected _).2.1 invalid
    rw [step_of_decode running inside decoded] at faults
    exact absurd (((faultsHaveCauses i s).1 _).1 faults) (not_faultCause_invalidOpcode i s w)

theorem exec_completes_iff (i : Instr) (s : State) : (∃ t, exec i s = .next t) ↔ ∀ k, ¬FaultCause i s k := by
  obtain ⟨faults, -, completes⟩ := faultsHaveCauses i s
  refine ⟨?_, completes⟩
  rintro ⟨t, next⟩ k cause
  rw [(faults k).2 cause] at next
  cases next

theorem safeStep_iff (s : State) :
    SafeStep s ↔ s.fault = none ∧ s.PC.toNat + 1 ≤ 0xFFF ∧
      ∃ i, decode (wordAt s.mem s.PC.toNat) = .ok i ∧ ∀ k, ¬FaultCause i s k := by
  constructor
  · rintro ⟨t, next⟩
    obtain ⟨running, i, fetched, next⟩ := step_eq_next.1 next
    obtain ⟨inside, decoded⟩ := fetchInstr_eq_ok.1 fetched
    exact ⟨running, inside, i, decoded, (exec_completes_iff i s).1 ⟨t, next⟩⟩
  · rintro ⟨running, inside, i, decoded, fine⟩
    obtain ⟨t, next⟩ := (exec_completes_iff i s).2 fine
    exact ⟨t, (step_of_decode running inside decoded).trans next⟩

/-- The recorded fault, the fetch, dispatch and the instruction's own check, in that order (R248). -/
theorem step_eq_fault_iff (s : State) (k : Fault) :
    step s = .fault k ↔ s.fault = some k ∨ (s.fault = none ∧
      ((0xFFF < s.PC.toNat + 1 ∧ k = .addressOverflow) ∨ (s.PC.toNat + 1 ≤ 0xFFF ∧
        ((InvalidWord (wordAt s.mem s.PC.toNat) ∧ k = .invalidOpcode (wordAt s.mem s.PC.toNat)) ∨
          ∃ i, decode (wordAt s.mem s.PC.toNat) = .ok i ∧ FaultCause i s k)))) := by
  cases fault : s.fault with
  | some recorded => simp [step_of_faulted fault]
  | none =>
    by_cases past : 0xFFF < s.PC.toNat + 1
    · simp [step_of_overflow fault past, past, Nat.not_le.2 past, eq_comm]
    have inside := Nat.not_lt.1 past
    by_cases invalid : InvalidWord (wordAt s.mem s.PC.toNat)
    · have rejected := (invalidWordsRejected _).1.1 invalid
      simp [step_of_invalid fault inside invalid, past, inside, invalid, rejected, eq_comm]
    · obtain ⟨i, decoded⟩ := (invalidWordsRejected _).2.1 invalid
      simp [step_of_decode fault inside decoded, past, inside, invalid, decoded, (faultsHaveCauses i s).1 k]

/-- Settles O15: the two answers of a step, each with what it needs. -/
theorem stepOutcome : Obligations.StepOutcome := ⟨safeStep_iff, step_eq_fault_iff⟩

theorem step_ne_refused (s : State) (r : Refusal) : step s ≠ .refused r := by
  rw [step]
  cases s.fault with
  | some k => nofun
  | none =>
    cases fetchInstr s with
    | error k => nofun
    | ok i => exact (faultsHaveCauses i s).2.1 r

/-! ## The call of a step, with the state it leaves (R100, R246) -/

theorem stepCall_ok_iff (s : State) : (stepCall s).2 = .ok ↔ ∃ t, step s = .next t := by
  cases answer : step s <;> simp [stepCall, settle, answer]

theorem stepCall_fault_iff (s : State) (k : Fault) : (stepCall s).2 = .fault k ↔ step s = .fault k := by
  cases answer : step s <;> simp [stepCall, settle, answer]

theorem step_of_ldVxK_released {x : Nibble} {s : State} (running : s.fault = none)
    (fetched : fetchInstr s = .ok (.ldVxK x)) (released : ∀ k : Fin 16, keyDown s k = false) :
    step s = .next (s.setWait .awaitingKey) :=
  (step_of_fetchInstr running fetched).trans (exec_ldVxK_of_released x (lowestKey_eq_none.2 released))

/-- Settles O17: the reply of the call names the answer of the step, and a waiting FX0A is a completed one. -/
theorem stepResult : Obligations.StepResult := by
  intro s
  refine ⟨stepCall_ok_iff s, fun t next => ?_, stepCall_fault_iff s, step_ne_refused s, ?_⟩
  · rw [stepCall_of_next next]
  · intro x running inside decoded released
    have fetched : fetchInstr s = .ok (.ldVxK x) := fetchInstr_eq_ok.2 ⟨inside, decoded⟩
    rw [stepCall_of_next (step_of_ldVxK_released running fetched released)]
    exact ⟨rfl, rfl⟩

/-! ## A faulted core (R91, R246, R247) -/

theorem tick_of_faulted {s : State} {k : Fault} (faulted : s.fault = some k) : tick s = .fault k := by
  rw [tick, faulted]
  rfl

theorem stepCall_of_faulted {s : State} {k : Fault} (faulted : s.fault = some k) : stepCall s = (s, .fault k) := by
  rw [stepCall_of_fault (step_of_faulted faulted), raise_of_faulted faulted]

theorem tickCall_of_faulted {s : State} {k : Fault} (faulted : s.fault = some k) : tickCall s = (s, .fault k) := by
  rw [tickCall, tick_of_faulted faulted, settle, raise_of_faulted faulted]

/-- Settles O12: the recorded fault is answered first, and recording it again changes nothing. -/
theorem faultedCoreStays : Obligations.FaultedCoreStays := fun _ _ faulted =>
  ⟨step_of_faulted faulted, tick_of_faulted faulted, stepCall_of_faulted faulted, tickCall_of_faulted faulted⟩

theorem onlyChanges_raise {ps : List Piece} (hps : .fault ∈ ps) (s : State) (k : Fault) :
    OnlyChanges ps s (s.raise k) := by
  intro p hp
  cases p
  case fault => exact absurd hps hp
  all_goals simp [Piece.same]

theorem onlyChanges_setKeyBit {ps : List Piece} (hps : .key ∈ ps) (s : State) (k : Fin 16) (b : Bool) :
    OnlyChanges ps s (s.setKeyBit k b) := by
  intro p hp
  cases p
  case key => exact absurd hps hp
  all_goals simp [Piece.same]

theorem onlyChanges_clearDirtyFlag {ps : List Piece} (hps : .dirty ∈ ps) (s : State) :
    OnlyChanges ps s s.clearDirtyFlag := by
  intro p hp
  cases p
  case dirty => exact absurd hps hp
  all_goals simp [Piece.same]

/-- On a faulted core a move changes at most what the host writes itself. -/
theorem apply_of_faulted {s : State} {k : Fault} (faulted : s.fault = some k) (m : Move) :
    OnlyChanges [.key, .dirty] s (m.apply s).1 := by
  cases m
  case step =>
    rw [Move.apply, stepCall_of_faulted faulted]
    exact onlyChanges_refl _ s
  case tick =>
    rw [Move.apply, tickCall_of_faulted faulted]
    exact onlyChanges_refl _ s
  case keySet j => exact onlyChanges_setKeyBit (by simp) s j true
  case keyClear j => exact onlyChanges_setKeyBit (by simp) s j false
  case clearDirty => exact onlyChanges_clearDirtyFlag (by simp) s
  case readFrame | readTone | readTimers => exact onlyChanges_refl _ s

theorem runMoves_of_faulted {s : State} {k : Fault} (faulted : s.fault = some k) (ms : List Move) :
    OnlyChanges [.key, .dirty] s (runMoves ms s) := by
  induction ms generalizing s with
  | nil => exact onlyChanges_refl _ s
  | cons m ms ih =>
    have first := apply_of_faulted faulted m
    have stillFaulted : (m.apply s).1.fault = some k := (first .fault (by simp)).trans faulted
    exact first.trans (ih stillFaulted)

/-- Settles O16: the call records the fault, and each later move finds a faulted core. -/
theorem faultIsPreciseAndFinal : Obligations.FaultIsPreciseAndFinal := by
  intro s k faults
  rw [stepCall_of_fault faults]
  exact ⟨rfl, rfl, onlyChanges_raise (by simp) s k, runMoves_of_faulted (s := s.raise k) rfl⟩

end Sys2Proof.Machine
end

section
/-!
PROOFS. The invariant of the machine (10_state.md sections 4, 5 and 8): it holds at reset and after an image has been
loaded, and every step and every other move of the host keeps it.
-/
namespace Sys2Proof.Machine

/-- The invariant speaks of memory, stack, PC and `wait` alone. -/
theorem Inv.congr {s t : State} (inv : Inv s) (mem : t.mem = s.mem) (stack : t.stack = s.stack) (pc : t.PC = s.PC)
    (wait : t.wait = s.wait) : Inv t where
  mem := mem ▸ inv.mem
  depth := stack ▸ inv.depth
  returns := stack ▸ inv.returns
  pc := pc ▸ inv.pc
  wait := fun awaiting => atKeyWait_congr pc mem (inv.wait (wait ▸ awaiting))

/-! ## The clauses, one by one, over a completed instruction -/

/-- Only FX33 and FX55 write memory, and a block write keeps the canonical form. -/
theorem wf_of_exec {i : Instr} {s t : State} (wf : Memory.wf s.mem) (h : exec i s = .next t) : Memory.wf t.mem := by
  cases i
  case ret =>
    obtain ⟨top, -, rfl⟩ := execRet_eq_next.1 h
    exact wf
  case call =>
    obtain ⟨-, rfl⟩ := execCall_eq_next.1 h
    exact wf
  case skp | sknp =>
    obtain ⟨k, -, rfl⟩ := keyTest_eq_next.1 h
    exact wf
  case drw =>
    obtain ⟨-, rfl⟩ := execDrw_eq_next.1 h
    exact wf
  case ldVxK =>
    rcases execLdVxK_eq_next.1 h with ⟨k, -, rfl⟩ | ⟨-, rfl⟩ <;> exact wf
  case ldB =>
    obtain ⟨-, rfl⟩ := execLdB_eq_next.1 h
    exact wf_memWriteBytes wf _ _
  case ldMemVx =>
    obtain ⟨-, rfl⟩ := execLdMemVx_eq_next.1 h
    exact wf_memWriteBytes wf _ _
  case ldVxMem =>
    obtain ⟨-, rfl⟩ := execLdVxMem_eq_next.1 h
    exact wf
  all_goals
    obtain rfl := complete_eq_next.1 h
    exact wf

/-- What a completed instruction leaves on the stack: one entry less, one return address more, or the same. -/
theorem stack_of_exec {i : Instr} {s t : State} (h : exec i s = .next t) :
    t.stack = s.stack ∨ t.stack = s.stack.dropLast ∨
      (s.stack.length < Config.stackDepth ∧ t.stack = s.stack ++ [s.PC + 2]) := by
  cases i
  case ret =>
    obtain ⟨top, -, rfl⟩ := execRet_eq_next.1 h
    exact .inr (.inl rfl)
  case call =>
    obtain ⟨room, rfl⟩ := execCall_eq_next.1 h
    exact .inr (.inr ⟨room, rfl⟩)
  all_goals exact .inl (onlyItsOwnWrites _ s t h .stack (by simp [writesOf]))

theorem depth_of_exec {i : Instr} {s t : State} (depth : s.stack.length ≤ Config.stackDepth)
    (h : exec i s = .next t) : t.stack.length ≤ Config.stackDepth := by
  rcases stack_of_exec h with same | popped | ⟨room, pushed⟩
  · rwa [same]
  · rw [popped, List.length_dropLast]
    omega
  · rw [pushed, List.length_append, List.length_singleton]
    omega

/-- A pushed return address is PC + 2 of a fetched instruction, so at most 0x1000 (R24). -/
theorem returns_of_exec {i : Instr} {s t : State} (returns : ∀ a ∈ s.stack, a.toNat ≤ 0x1000)
    (inside : s.PC.toNat + 1 ≤ 0xFFF) (h : exec i s = .next t) : ∀ a ∈ t.stack, a.toNat ≤ 0x1000 := by
  rcases stack_of_exec h with same | popped | ⟨-, pushed⟩
  · rwa [same]
  · rw [popped]
    exact fun a ha => returns a (List.mem_of_mem_dropLast ha)
  · rw [pushed]
    intro a ha
    rcases List.mem_append.1 ha with old | new
    · exact returns a old
    · rw [List.mem_singleton.1 new]
      bv_omega

/-- Each policy and each target stays within the bound of R24: BNNN reaches furthest, to 0xFFF + 0xFF. -/
theorem pc_of_policy {i : Instr} {s : State} {pc : Word} (returns : ∀ a ∈ s.stack, a.toNat ≤ 0x1000)
    (inside : s.PC.toNat + 1 ≤ 0xFFF) (allowed : PolicyAllows i s pc) : pc.toNat ≤ 0x10FE := by
  cases i
  all_goals simp only [PolicyAllows] at allowed
  case ret => exact (returns pc (List.mem_of_getLast? allowed)).trans (by decide)
  case sys | jp | call | jpV0 => omega
  all_goals bv_omega

/-- `wait` is written by FX0A alone; a wait that goes on is at the FX0A that began it. -/
theorem atKeyWait_of_exec {i : Instr} {s t : State} (inv : s.wait = .awaitingKey → AtKeyWait s)
    (fetched : fetchInstr s = .ok i) (h : exec i s = .next t) (awaiting : t.wait = .awaitingKey) : AtKeyWait t := by
  by_cases waits : .wait ∈ writesOf i
  · cases i
    case ldVxK x =>
      rcases execLdVxK_eq_next.1 h with ⟨k, -, rfl⟩ | ⟨-, rfl⟩
      · cases awaiting
      · exact atKeyWait_congr rfl rfl ⟨x, fetched⟩
    all_goals exact absurd waits (by simp [writesOf])
  · have before : s.wait = .awaitingKey := (onlyItsOwnWrites i s t h .wait waits).symm.trans awaiting
    obtain ⟨x, atWait⟩ := inv before
    rw [fetched] at atWait
    cases atWait
    exact absurd (by simp [writesOf]) waits

/-- Settles O23: the fetch bounds PC, and each clause is kept by the fetched instruction. -/
theorem stepKeepsInv : Obligations.StepKeepsInv := by
  intro s t inv h
  obtain ⟨-, i, fetched, next⟩ := step_eq_next.1 h
  obtain ⟨inside, -⟩ := fetchInstr_eq_ok.1 fetched
  exact
    { mem := wf_of_exec inv.mem next
      depth := depth_of_exec inv.depth next
      returns := returns_of_exec inv.returns inside next
      pc := pc_of_policy inv.returns inside (policyOfRow i s t next)
      wait := atKeyWait_of_exec inv.wait fetched next }

/-! ## Reset, the image and the host's moves -/

/-- Settles O10: no cell listed, no entry on the stack, no wait. -/
theorem resetInv : Obligations.ResetInv where
  mem := wf_reset
  depth := Nat.zero_le _
  returns := fun _ ha => absurd ha List.not_mem_nil
  pc := by decide
  wait := nofun

theorem inv_loadImage (image : List Byte) : Inv (loadImage image State.reset) where
  mem := wf_memWriteBytes wf_reset _ image
  depth := resetInv.depth
  returns := resetInv.returns
  pc := resetInv.pc
  wait := nofun

theorem boot_of_fits {image : List Byte} (fits : image.length ≤ Config.progMax) :
    boot image = .next (loadImage image State.reset) := if_pos fits

theorem boot_of_too_long {image : List Byte} (long : Config.progMax < image.length) :
    boot image = .refused (.imageTooLong image.length) := if_neg (Nat.not_le.2 long)

theorem inv_boot {image : List Byte} {s : State} (h : boot image = .next s) : Inv s := by
  rcases Nat.lt_or_ge Config.progMax image.length with long | fits
  · rw [boot_of_too_long long] at h
    cases h
  · rw [boot_of_fits fits] at h
    cases h
    exact inv_loadImage image

theorem inv_stepCall {s : State} (inv : Inv s) : Inv (stepCall s).1 := by
  cases answer : step s with
  | next t =>
    rw [stepCall_of_next answer]
    exact stepKeepsInv s t inv answer
  | fault k =>
    rw [stepCall_of_fault answer]
    exact inv.congr rfl rfl rfl rfl
  | refused r => exact absurd answer (step_ne_refused s r)

theorem inv_tickCall {s : State} (inv : Inv s) : Inv (tickCall s).1 := by
  cases fault : s.fault with
  | some k => rwa [tickCall_of_faulted fault]
  | none =>
    rw [tickCall, tick_of_running fault]
    exact inv.congr rfl rfl rfl rfl

theorem inv_apply (m : Move) {s : State} (inv : Inv s) : Inv (m.apply s).1 := by
  cases m
  case step => exact inv_stepCall inv
  case tick => exact inv_tickCall inv
  case keySet | keyClear | clearDirty => exact inv.congr rfl rfl rfl rfl
  case readFrame | readTone | readTimers => exact inv

theorem inv_runMoves {s : State} (inv : Inv s) (ms : List Move) : Inv (runMoves ms s) := by
  induction ms generalizing s with
  | nil => exact inv
  | cons m ms ih => exact ih (inv_apply m inv)

/-- Settles O24: the moves one at a time, from the loaded image on. -/
theorem movesKeepInv : Obligations.MovesKeepInv :=
  ⟨fun m _ => inv_apply m, fun _ _ ms booted => inv_runMoves (inv_boot booted) ms⟩

end Sys2Proof.Machine
end

section
/-!
PROOFS. The jumps, the call with its return, the register skips and the jump to itself (41_control_flow.md).
-/
namespace Sys2Proof.Machine

/-! ## Jumps (R111, R112, R114) -/

/-- A jump completes in every state and changes only PC. -/
theorem jumpTo_spec (target : Word) (s : State) :
    ∃ t, jumpTo target s = .next t ∧ t.PC.toNat = target.toNat ∧ OnlyChanges [.PC] s t :=
  ⟨_, jumpTo_eq target s, rfl, onlyChanges_setPC (by simp) s target⟩

/-- Settles O26: both are a jump to NNN with a high nibble of 0. -/
theorem jumpsSetPC : Obligations.JumpsSetPC := by
  intro nnn s
  have jump := jumpTo_spec (addr16 nnn) s
  rw [addr16_toNat] at jump
  exact ⟨decode_sys, decode_jp nnn, jump, jump⟩

/-- Settles O29: a jump to the sum, which stays below 2 ^ 16. -/
theorem jumpV0 : Obligations.JumpV0 := by
  intro nnn s
  have jump := jumpTo_spec (addr16 nnn + zext16 (s.readV offsetReg)) s
  rw [jumpV0_target_toNat] at jump
  exact ⟨decode_jpV0 nnn, jump⟩

/-- Settles O28: the entry that the call pushed is the top that the return pops. -/
theorem callThenReturn : Obligations.CallThenReturn := by
  intro nnn s t u called stack
  obtain ⟨-, rfl⟩ := execCall_eq_next.1 called
  exact ⟨_, exec_ret_of_top stack, rfl, rfl⟩

/-! ## The register skips (R117, R118) -/

/-- In groups 5 and 9 only the low digit 0 makes an instruction (R76, D5). -/
theorem decode_of_high_digit {a : Nibble} (group : a = 0x5#4 ∨ a = 0x9#4) (x y : Nibble) {n : Nibble}
    (high : n ≠ 0x0#4) : decode (a ++ x ++ y ++ n) = .error (.invalidOpcode (a ++ x ++ y ++ n)) := by
  apply (invalidWordsRejected _).1.1
  rcases group with rfl | rfl
  · exact .inl (by simpa using high)
  · exact .inr (.inr (.inl (by simpa using high)))

/-- Settles O31: both are one conditional skip, on equality and on its negation. -/
theorem skipRegister : Obligations.SkipRegister := by
  intro x y s
  have onEqual := skipIf_spec (c := s.readV x == s.readV y) beq_iff_eq s
  have onDiffer := skipIf_spec (c := s.readV x != s.readV y) bne_iff_ne s
  rw [not_ne_iff] at onDiffer
  exact ⟨decode_seReg x y, decode_sneReg x y,
    fun n high => ⟨decode_of_high_digit (.inl rfl) x y high, decode_of_high_digit (.inr rfl) x y high⟩,
    onEqual, onDiffer⟩

/-! ## A step that changes nothing, for ever -/

theorem safeRun_of_fixed {s : State} (fixed : step s = .next s) (n : Nat) : SafeRun n s := by
  induction n with
  | zero => trivial
  | succ n ih => exact ⟨s, fixed, ih⟩

/-- Settles O32: a jump to the address that PC has leaves the state as it is. -/
theorem selfJumpLoops : Obligations.SelfJumpLoops := by
  intro s nnn running here inside word
  have decoded : decode (wordAt s.mem s.PC.toNat) = .ok (.jp nnn) := by
    rw [← decode_jp nnn, ← word]
    rfl
  have target : addr16 nnn = s.PC := BitVec.eq_of_toNat_eq (by rw [addr16_toNat, here])
  have fixed : step s = .next s := by
    rw [step_of_decode running (by omega) decoded, exec, execJp, target, jumpTo_eq]
    rfl
  exact ⟨fixed, safeRun_of_fixed fixed⟩

end Sys2Proof.Machine
end

section
/-!
PROOFS. The arithmetic family (42_alu.md sections 2 to 5): results with and without a flag, and the random byte.
-/
namespace Sys2Proof.Machine

/-! ## One register written, with no flag (D31) -/

/-- Settles O34: the sum modulo 256 written to Vx. -/
theorem addImmediate : Obligations.AddImmediate := by
  intro x kk s
  obtain ⟨t, next, result, rest⟩ := writeResult_spec x (addMod (s.readV x) kk) s
  exact ⟨decode_addImm x kk, t, next, by rw [result, addMod_toNat], rest⟩

/-- A result known bit by bit. -/
theorem writeResult_bits {r : Byte} {bit : Nat → Bool} (bits : ∀ b, r.getLsbD b = bit b) (x : Nibble) (s : State) :
    ∃ t, writeResult x r s = .next t ∧ (∀ b : Nat, (t.readV x).getLsbD b = bit b) ∧ RegsKeptBut x s t ∧
      t.PC = s.PC + 2 ∧ OnlyChanges [.V, .PC] s t := by
  obtain ⟨t, next, result, rest⟩ := writeResult_spec x r s
  exact ⟨t, next, fun b => by rw [result, bits], rest⟩

/-- Settles O36: each operation acts on each bit alone. -/
theorem logicBitwise : Obligations.LogicBitwise := fun x y s =>
  ⟨decode_orReg x y, decode_andReg x y, decode_xorReg x y,
    writeResult_bits (fun _ => BitVec.getLsbD_or) x s, writeResult_bits (fun _ => BitVec.getLsbD_and) x s,
    writeResult_bits (fun _ => BitVec.getLsbD_xor) x s⟩

/-! ## A result and then a flag (R97, D4) -/

theorem resultAndFlag_setResultThenFlag {x : Nibble} {r : Byte} {f : Bool} {n : Nat} {P : Prop} (value : r.toNat = n)
    (flag : f = true ↔ P) (s : State) : ResultAndFlag x n P s (s.setResultThenFlag x r f) := by
  refine ⟨fun notFlag => ?_, fun holds => ?_, fun fails => ?_, fun j notX notFlag => ?_⟩
  all_goals rw [State.setResultThenFlag_readV]
  · rw [if_neg (show x ≠ flagReg from notFlag), if_pos rfl, value]
  · exact (if_pos rfl).trans ((flagByte_eq_one f).2 (flag.2 holds))
  · exact (if_pos rfl).trans ((flagByte_eq_zero f).2 (Bool.eq_false_iff.2 (mt flag.1 fails)))
  · rw [if_neg (show j ≠ flagReg from notFlag), if_neg notX]

/-- The result goes to Vx and the flag to VF, which keeps the flag for x = F; PC moves on by 2. -/
theorem writeResultAndFlag_spec {r : Byte} {f : Bool} {n : Nat} {P : Prop} (value : r.toNat = n) (flag : f = true ↔ P)
    (x : Nibble) (s : State) :
    ∃ t, writeResultAndFlag x r f s = .next t ∧ ResultAndFlag x n P s t ∧ t.PC = s.PC + 2 ∧
      OnlyChanges [.V, .PC] s t :=
  ⟨(s.setResultThenFlag x r f).advance .step, rfl, resultAndFlag_setResultThenFlag value flag s, rfl,
    (onlyChanges_setResultThenFlag (by simp) s x r f).advance (by simp) .step⟩

/-- Settles O37: the sum and the carry. -/
theorem addRegister : Obligations.AddRegister := fun x y s =>
  ⟨decode_addReg x y, writeResultAndFlag_spec (addMod_toNat _ _) (carryFlag_iff _ _) x s⟩

/-- Settles O38: the difference and no borrow. -/
theorem subRegister : Obligations.SubRegister := fun x y s =>
  ⟨decode_subReg x y, writeResultAndFlag_spec (subMod_toNat _ _) (noBorrowFlag_iff _ _) x s⟩

/-- Settles O39: half of Vy and the bit dropped. -/
theorem shiftRight : Obligations.ShiftRight := fun x y s =>
  ⟨decode_shrReg x y, writeResultAndFlag_spec (shiftRight1_toNat _) (lsbFlag_iff _) x s⟩

/-- Settles O40: the difference the other way round and no borrow. -/
theorem subReverse : Obligations.SubReverse := fun x y s =>
  ⟨decode_subnReg x y, writeResultAndFlag_spec (subMod_toNat _ _) (noBorrowFlag_iff _ _) x s⟩

/-- Settles O41: twice Vy and the bit dropped. -/
theorem shiftLeft : Obligations.ShiftLeft := fun x y s =>
  ⟨decode_shlReg x y, writeResultAndFlag_spec (shiftLeft1_toNat _) (msbFlag_iff _) x s⟩

/-! ## The random byte (R151) -/

/-- Settles O42: the drawn byte under the mask is a result like any other, written after the draw is counted. -/
theorem randomByte : Obligations.RandomByte := by
  intro x kk s
  refine ⟨decode_rnd x kk, ?_, fun r => ?_⟩
  · obtain ⟨t, next, result, kept, pc, frame⟩ := writeResult_spec x (Config.rngByte s.draws &&& kk) s.countDraw
    have drawn : t.draws = s.countDraw.draws := frame .draws (by simp)
    exact ⟨t, next, result, drawn, kept, pc, (onlyChanges_countDraw (by simp) s).trans (frame.mono (by simp))⟩
  · obtain ⟨t, next, bits, -⟩ := writeResult_bits (r := r &&& kk) (fun _ => BitVec.getLsbD_and) x s.countDraw
    exact ⟨t, next, bits⟩

end Sys2Proof.Machine
end

section
/-!
PROOFS. The index family (43_index_memory.md): the sums that I takes, and what a stored block is read back as.
-/
namespace Sys2Proof.Machine

/-- Settles O44: the saturated sum written to I. -/
theorem addIndex : Obligations.AddIndex := by
  intro x s
  obtain ⟨t, next, index, rest⟩ := writeIndex_spec (saturatingIndex s.I (s.readV x)) s
  exact ⟨decode_addI x, t, next, by rw [index, saturatingIndex_toNat], rest⟩

/-- Settles O45: the glyph's address written to I. -/
theorem glyphAddress : Obligations.GlyphAddress := by
  intro x s
  obtain ⟨t, next, index, rest⟩ := writeIndex_spec (glyphAddr (s.readV x)) s
  exact ⟨decode_ldF x, t, next, by rw [index, glyphAddr_toNat], rest⟩

/-! ## A stored block, loaded or run (R56, R174, R175) -/

/-- After FX55 the block lies inside memory and holds the registers in order. -/
theorem memRead_of_exec_ldMemVx {x : Nibble} {s t : State} (h : exec (.ldMemVx x) s = .next t) :
    s.I.toNat + x.toNat ≤ 0xFFF ∧
      ∀ k : Nibble, k.toNat ≤ x.toNat → memRead t.mem (s.I.toNat + k.toNat) = s.readV k := by
  obtain ⟨room, rfl⟩ := execLdMemVx_eq_next.1 h
  exact ⟨room, fun k => memRead_storeBytes_regBlock s room⟩

/-- Settles O49: the load from the same I reads the bytes that the store has put there. -/
theorem storeThenLoad : Obligations.StoreThenLoad := by
  intro x s t u stored mem index
  obtain ⟨room, block⟩ := memRead_of_exec_ldMemVx stored
  refine ⟨_, exec_ldVxMem_of_room (index ▸ room), fun j => ?_⟩
  rw [State.advance_readV, State.setI_readV, setAllV_loadBlock_readV, mem, index]
  exact ⟨fun low => (if_pos low).trans (block j low), fun high => if_neg high.not_ge⟩

/-- Settles O50: the fetch reads memory as FX55 has left it. -/
theorem storedCodeRuns : Obligations.StoredCodeRuns := by
  intro x k k' s t u i stored successive low mem running pc decoded
  obtain ⟨room, block⟩ := memRead_of_exec_ldMemVx stored
  have high : memRead u.mem u.PC.toNat = s.readV k := by rw [mem, pc, block k (by omega)]
  have next : memRead u.mem (u.PC.toNat + 1) = s.readV k' := by
    rw [mem, pc, ← block k' low, successive, Nat.add_assoc]
  refine step_of_decode running (by omega) ?_
  rw [wordAt, high, next]
  exact decoded

end Sys2Proof.Machine
end

section
/-!
PROOFS. The sprite of DXYN (44_display.md section 2): every pixel after a draw, its collision, and a draw repeated.
-/
namespace Sys2Proof.Machine

/-! ## Every pixel after a draw (R191, R193) -/

theorem pixel_of_exec_drw {x y n : Nibble} {s t : State} (h : exec (.drw x y n) s = .next t) (px py : Nat) :
    pixel t.FB px py = (pixel s.FB px py ^^
      spriteAt (memReadBytes s.mem s.I.toNat n.toNat) (s.readV x).toNat (s.readV y).toNat px py) := by
  obtain ⟨-, rfl⟩ := execDrw_eq_next.1 h
  exact pixel_drawSprite s.FB _ _ px py _

/-- A pixel of the grid meets one row and one column of the sprite. -/
theorem spriteAt_of_onScreen {x y n : Nibble} {s : State} {r c : Nat} (on : OnScreen s x y n r c) :
    spriteAt (memReadBytes s.mem s.I.toNat n.toNat) (s.readV x).toNat (s.readV y).toNat ((s.readV x).toNat + c)
      ((s.readV y).toNat + r) = rowBit s r c := by
  rw [Bool.eq_iff_iff, spriteAt_memReadBytes]
  constructor
  · rintro ⟨r', c', -, column, row, bit⟩
    rwa [Nat.add_left_cancel row, Nat.add_left_cancel column]
  · exact fun bit => ⟨r, c, on, rfl, rfl, bit⟩

theorem pixel_of_onScreen {x y n : Nibble} {s t : State} (h : exec (.drw x y n) s = .next t) {r c : Nat}
    (on : OnScreen s x y n r c) :
    pixel t.FB ((s.readV x).toNat + c) ((s.readV y).toNat + r) =
      (pixel s.FB ((s.readV x).toNat + c) ((s.readV y).toNat + r) ^^ rowBit s r c) := by
  rw [pixel_of_exec_drw h, spriteAt_of_onScreen on]

theorem pixel_outside_sprite {x y n : Nibble} {s t : State} (h : exec (.drw x y n) s = .next t) {px py : Nat}
    (off : ¬∃ r c, OnScreen s x y n r c ∧ px = (s.readV x).toNat + c ∧ py = (s.readV y).toNat + r) :
    pixel t.FB px py = pixel s.FB px py := by
  have noBit : ¬spriteAt (memReadBytes s.mem s.I.toNat n.toNat) (s.readV x).toNat (s.readV y).toNat px py = true := by
    rw [spriteAt_memReadBytes]
    rintro ⟨r, c, on, column, row, -⟩
    exact off ⟨r, c, on, column, row⟩
  rw [pixel_of_exec_drw h, Bool.eq_false_iff.2 noBit, Bool.xor_false]

/-! ## The collision flag (R194) -/

/-- A set bit of the sprite falls on a set pixel of the grid. -/
def Collides (s : State) (x y n : Nibble) : Prop :=
  ∃ r c, OnScreen s x y n r c ∧
    pixel s.FB ((s.readV x).toNat + c) ((s.readV y).toNat + r) = true ∧ rowBit s r c = true

theorem collides_iff {x y n : Nibble} {s : State} :
    (drawSprite s.FB (s.readV x).toNat (s.readV y).toNat (memReadBytes s.mem s.I.toNat n.toNat)).2 = true ↔
      Collides s x y n := by
  rw [collision_drawSprite]
  constructor
  · rintro ⟨px, py, set, bit⟩
    obtain ⟨r, c, on, rfl, rfl, hit⟩ := spriteAt_memReadBytes.1 bit
    exact ⟨r, c, on, set, hit⟩
  · rintro ⟨r, c, on, set, bit⟩
    exact ⟨_, _, set, (spriteAt_of_onScreen on).trans bit⟩

theorem readV_flag_of_exec_drw {x y n : Nibble} {s t : State} (h : exec (.drw x y n) s = .next t) :
    (t.readV 0xF#4 = 1#8 ↔ Collides s x y n) ∧ (t.readV 0xF#4 = 0#8 ↔ ¬Collides s x y n) := by
  obtain ⟨-, rfl⟩ := execDrw_eq_next.1 h
  rw [State.advance_readV, State.setVF_readV, if_pos (show 0xF#4 = flagReg from rfl), flagByte_eq_one, flagByte_eq_zero,
    ← Bool.not_eq_true, collides_iff]
  exact ⟨Iff.rfl, Iff.rfl⟩

theorem regsKeptBut_of_exec_drw {x y n : Nibble} {s t : State} (h : exec (.drw x y n) s = .next t) :
    RegsKeptBut 0xF#4 s t := by
  obtain ⟨-, rfl⟩ := execDrw_eq_next.1 h
  exact regsKeptBut_setV _ flagReg _

/-! ## The same draw twice (conflict C12) -/

/-- Settles O54: the second draw XORs the same bits again, and collides where the first has set a pixel. -/
theorem drawTwiceRestores : Obligations.DrawTwiceRestores := by
  intro x y n s t u v first frame index mem vx vy second
  constructor
  · apply frame_ext
    intro px py
    rw [pixel_of_exec_drw second, frame, pixel_of_exec_drw first, index, mem, vx, vy, Bool.xor_assoc, Bool.xor_self,
      Bool.xor_false]
  · rw [(readV_flag_of_exec_drw second).1]
    have onScreen (r c : Nat) : OnScreen u x y n r c ↔ OnScreen s x y n r c := by rw [OnScreen, OnScreen, vx, vy]
    have bit (r c : Nat) : rowBit u r c = rowBit s r c := by rw [rowBit, rowBit, index, mem]
    constructor
    · rintro ⟨r, c, on, set, hit⟩
      rw [onScreen] at on
      rw [frame, vx, vy, pixel_of_onScreen first on] at set
      rw [bit] at hit
      exact ⟨r, c, on, hit, by simpa [hit] using set⟩
    · rintro ⟨r, c, on, hit, clear⟩
      refine ⟨r, c, (onScreen r c).2 on, ?_, (bit r c).trans hit⟩
      rw [frame, vx, vy, pixel_of_onScreen first on, clear, hit]
      rfl

end Sys2Proof.Machine

namespace Sys2Proof
open Machine

/-- Settles O52: with room for the rows each pixel and the flag are as the sprite drawer leaves them; without it the
span check faults. The name stands outside `Machine`, where `drawSprite` is the sprite drawer. -/
theorem drawSprite : Obligations.DrawSprite := by
  refine fun x y n s => ⟨decode_drw x y n, fun room => ?_, exec_drw_of_overflow x y⟩
  obtain ⟨t, next⟩ := exec_drw_of_room x y room
  obtain ⟨collision, noCollision⟩ := readV_flag_of_exec_drw next
  exact ⟨t, next, fun r c => pixel_of_onScreen next, fun px py => pixel_outside_sprite next, collision.2,
    noCollision.2, regsKeptBut_of_exec_drw next, exec_drw_dirty next, policyOfRow _ s t next,
    (onlyItsOwnWrites _ s t next).mono (by simp [writesOf])⟩

end Sys2Proof
end

section
/-!
PROOFS. `tick()` on both timers, once and n times (45_timers.md section 2).
-/
namespace Sys2Proof.Machine

theorem runMoves_ticks_DT_toNat {s : State} (running : s.fault = none) (n : Nat) :
    (runMoves (List.replicate n .tick) s).DT.toNat = s.DT.toNat - n := by
  induction n generalizing s with
  | zero => rfl
  | succ n ih =>
    have stillRunning : ((s.setDT (countDown s.DT)).setST (countDown s.ST)).fault = none := running
    rw [List.replicate_succ, runMoves, apply_tick_of_running running, ih stillRunning, State.setST_DT, State.setDT_DT,
      countDown_toNat, Nat.sub_sub, Nat.add_comm 1 n]

/-- Settles O56: one tick sets both timers, and n of them are an induction on n. -/
theorem timersCountDown : Obligations.TimersCountDown := by
  intro n s running
  refine ⟨⟨_, tick_of_running running, countDown_toNat s.DT, countDown_toNat s.ST, ?_⟩,
    runMoves_ticks_DT_toNat running n, runMoves_ticks_ST_toNat running n, toneEnabled_ticks_iff running n⟩
  exact (onlyChanges_setDT (by simp) s _).trans (onlyChanges_setST (by simp) _ _)

end Sys2Proof.Machine
end

section
/-!
PROOFS. The key tests, the key wait and the step of a core that awaits a key (46_input.md).
-/
namespace Sys2Proof.Machine

/-! ## The key tests (R221, R222, R245) -/

/-- Settles O57: on a key a conditional skip on the key's level, above 15 the fault. -/
theorem keyTests : Obligations.KeyTests := by
  intro x s
  refine ⟨decode_skp x, decode_sknp x, fun k key => ?_,
    fun invalid => ⟨keyTest_of_invalid invalid true s, keyTest_of_invalid invalid false s⟩⟩
  have onPressed := skipIf_spec (c := keyDown s k == true) beq_iff_eq s
  have onReleased := skipIf_spec (c := keyDown s k == false) beq_iff_eq s
  rw [← keyTest_of_key key, Bool.not_eq_true] at onPressed
  rw [← keyTest_of_key key, Bool.not_eq_false] at onReleased
  exact ⟨onPressed, onReleased⟩

/-! ## The key wait (R223, R224, R225) -/

/-- Settles O58: the lowest pressed key is stored and ends the wait; without one only `wait` is written. -/
theorem keyWait : Obligations.KeyWait := by
  intro x s
  refine ⟨decode_ldVxK x, fun k pressed lower => ?_, fun released => ?_⟩
  · refine ⟨_, exec_ldVxK_of_pressed x (lowestKey_eq_some.2 ⟨pressed, lower⟩), ?_, ?_, rfl, rfl, ?_⟩
    · rw [State.advance_readV, State.setWait_readV, State.setV_readV, if_pos rfl, BitVec.toNat_ofNat]
      omega
    · exact regsKeptBut_setV s x _
    · exact ((onlyChanges_setV (by simp) s x _).trans (onlyChanges_setWait (by simp) _ .idle)).advance (by simp) .step
  · exact ⟨_, exec_ldVxK_of_released x (lowestKey_eq_none.2 released), rfl, onlyChanges_setWait (by simp) s _⟩

theorem setWait_of_awaiting {s : State} (awaiting : s.wait = .awaitingKey) : s.setWait .awaitingKey = s := by
  rw [State.setWait, ← awaiting]

theorem lowestKey_keySet (k : Fin 16) (s : State) : ∃ j, lowestKey (keySet k s) = some j := by
  cases found : lowestKey (keySet k s) with
  | some j => exact ⟨j, rfl⟩
  | none =>
    have released := lowestKey_eq_none.1 found k
    rw [keySet, State.setKeyBit_keyDown, if_pos rfl] at released
    cases released

/-- Settles O59: the invariant puts the FX0A at PC, which sets `wait` to what it is, or takes the key. -/
theorem waitingStep : Obligations.WaitingStep := by
  intro s inv running awaiting
  obtain ⟨x, fetched⟩ := inv.wait awaiting
  refine ⟨fun released => ?_, fun k => ?_⟩
  · have fixed : step s = .next s := by
      rw [step_of_ldVxK_released running fetched released, setWait_of_awaiting awaiting]
    exact ⟨fixed, safeRun_of_fixed fixed⟩
  · obtain ⟨j, lowest⟩ := lowestKey_keySet k s
    have fetched' : fetchInstr (keySet k s) = .ok (.ldVxK x) := (fetchInstr_congr rfl rfl).trans fetched
    have running' : (keySet k s).fault = none := running
    exact ⟨_, (step_of_fetchInstr running' fetched').trans (exec_ldVxK_of_pressed x lowest), rfl, rfl⟩

end Sys2Proof.Machine
end

section
/-!
PROOFS. The host's moves but `step()` and `tick()`, reset, and the program image (60_exceptions.md section 4,
70_reset_and_hazards.md section 1).
-/
namespace Sys2Proof.Machine

/-! ## The host's other moves (R220, R252) -/

theorem keyDown_setKeyBit_same (s : State) (k : Fin 16) (b : Bool) : keyDown (s.setKeyBit k b) k = b := by
  rw [State.setKeyBit_keyDown, if_pos rfl]

theorem keyDown_setKeyBit_other {j k : Fin 16} (other : j ≠ k) (s : State) (b : Bool) :
    keyDown (s.setKeyBit k b) j = keyDown s j := by
  rw [State.setKeyBit_keyDown, if_neg other]

/-- Settles O60: the key moves set one bit of the latch, `clearDirty` the flag, and the reads write nothing. -/
theorem hostMoves : Obligations.HostMoves := fun s k =>
  ⟨⟨keyDown_setKeyBit_same s k true, keyDown_setKeyBit_same s k false,
      fun _ other => ⟨keyDown_setKeyBit_other other s true, keyDown_setKeyBit_other other s false⟩,
      onlyChanges_setKeyBit (by simp) s k true, onlyChanges_setKeyBit (by simp) s k false⟩,
    ⟨rfl, onlyChanges_clearDirtyFlag (by simp) s⟩, rfl, rfl, rfl⟩

/-! ## Reset and the program image (R270 to R274) -/

/-- Settles O9: the image is one block write to memory as reset leaves it; its length alone decides the refusal. -/
theorem bootLoadsImage : Obligations.BootLoadsImage := by
  refine fun image => ⟨fun fits => ⟨_, boot_of_fits fits, rfl, fun k hk => ?_, ?_, ?_⟩, boot_of_too_long⟩
  · have inside : Config.progBase + image.length ≤ Config.memSize := by
      rw [Config.progBase, Config.memSize]
      omega
    exact memRead_memWriteBytes_inside _ Config.progBase k image hk inside
  · exact bytesKeptBut_storeBytes rfl State.reset Config.progBase
  · exact onlyChanges_storeBytes (by simp) State.reset _ image

theorem unlistedByte_font {a : Nat} (h : 0x050 ≤ a ∧ a ≤ 0x09F) :
    unlistedByte a = Config.fontGlyphs[a - 0x050]'(by simp only [Config.fontLength]; omega) := by
  have inTable : Config.fontBase ≤ a ∧ a < Config.fontBase + Config.fontLength := by
    rw [Config.fontBase, Config.fontLength]
    omega
  rw [unlistedByte, dif_pos inTable]
  rfl

theorem unlistedByte_zero {a : Nat} (h : a < 0x050 ∨ 0x09F < a) : unlistedByte a = 0#8 := by
  have notInTable : ¬(Config.fontBase ≤ a ∧ a < Config.fontBase + Config.fontLength) := by
    rw [Config.fontBase, Config.fontLength]
    omega
  rw [unlistedByte, dif_neg notInTable]
  rfl

/-- A timer's open reset value is one more than a number below 255 (R7, D17). -/
theorem one_le_ofNat_succ (n : Fin 255) : 1 ≤ (BitVec.ofNat 8 (n.val + 1)).toNat := by
  rw [BitVec.toNat_ofNat]
  omega

theorem readV_reset (j : Nibble) : State.reset.readV j = 0#8 := Vector.getElem_replicate _

theorem keyDown_reset (k : Fin 16) : keyDown State.reset k = false := Vector.getElem_replicate _

/-- Settles O8: field by field; an unlisted address reads as its font byte or as 0. -/
theorem resetState : Obligations.ResetState :=
  ⟨readV_reset, rfl, rfl, rfl, rfl, one_le_ofNat_succ _, rfl, one_le_ofNat_succ _,
    fun px py _ _ => pixel_blankFrame px py, rfl, keyDown_reset, rfl, rfl, fun _ => unlistedByte_font,
    fun _ _ => unlistedByte_zero⟩

end Sys2Proof.Machine
end
